-- ==== Sys2Proof/Word.lean ====
section
/-! DEFINITION. The unsigned values of the block and the byte sequences that are its only memory.

Spec: 00_scope.md "Numbers" (all values are unsigned, a byte is 8 bits, a checksum word is 16 bits, a header word is
32 bits) and 20_memory.md R40 (the only addressable objects are byte sequences). -/

namespace Sys2Proof

/-- A byte (00_scope.md, Numbers). -/
abbrev Byte := BitVec 8

/-- A 16-bit field or checksum word. -/
abbrev Word16 := BitVec 16

/-- A 32-bit field or header word. -/
abbrev Word32 := BitVec 32

/-- A finite byte sequence, its own address space, indexed from 0 (R40). -/
abbrev Bytes := List Byte

end Sys2Proof
end

