-- ==== Sys2Proof/Config.lean ====
section
/-! DEFINITION. The parameters of the block (00_scope.md R6).

BUF_MAX has no entry: R6 leaves it open and 92_eei_decisions.md lets a model take it as unbounded, which this model does
(DESIGN CHOICE, log entry 4). The widths of the fields are the widths of their types in Syntax.lean. -/

namespace Sys2Proof.Config

/-- HDR_MIN: the minimum header length in bytes (R6). -/
abbrev hdrMin : Nat := 20

/-- The largest `data_offset` its four bits hold (R6: HDR_MAX = 15 * 4). -/
abbrev doffMax : Nat := 15

/-- PROTO_TCP: the one admitted protocol number (R6, R74). -/
abbrev protoTcp : Byte := 0x06

/-- SEG_MAX: the largest header plus payload length a checksum operation admits (R6, R74). -/
abbrev segMax : Nat := 65535

/-- OPT_PAD_BYTE: the byte HDR.BUILD appends to options that are not a multiple of 4 bytes (R6, R132).
PRESUMED (log entry 5): the spec takes 0x01 from general knowledge. -/
abbrev optPadByte : Byte := 0x01

end Sys2Proof.Config
end

