-- ==== Sys2Proof/Syntax.lean ====
section
/-! DEFINITION. The instructions: one constructor for each row of spec/opcode_table.json, with its operands as structured
values (30_encoding.md R71), and the encoded forms a row's instance stands in at the block's input.

The table holds six operations and two reserved OP values (format CMD), nine 32-bit words of the wire format (format
WIRE32) and the response status code (format RSP). -/

namespace Sys2Proof

/-- The PseudoHeader operand group (10_state.md R24). `tcp_length` is not a field: the block derives it. -/
structure PseudoHeader where
  /-- Source address, first dotted octet most significant. -/
  src : Word32
  /-- Destination address, first dotted octet most significant. -/
  dst : Word32
  /-- Protocol number; 6 is the only admitted value (R74). -/
  protocol : Byte
  deriving DecidableEq, Repr

/-- The eight flags, independent booleans (10_state.md R17). -/
structure TcpFlags where
  cwr : Bool
  ece : Bool
  urg : Bool
  ack : Bool
  psh : Bool
  rst : Bool
  syn : Bool
  fin : Bool
  deriving DecidableEq, Repr

/-- The operand group F of HDR.BUILD and SEG.TO_BYTES (10_state.md R26, 30_encoding.md R71): the TcpHeader fields
without `reserved` and `checksum`, with `data_offset` optional under its valid bit. -/
structure Fields where
  sourcePort : Word16
  destinationPort : Word16
  sequenceNumber : Word32
  acknowledgmentNumber : Word32
  dataOffsetValid : Bool
  dataOffset : BitVec 4
  flags : TcpFlags
  windowSize : Word16
  urgentPointer : Word16
  options : Bytes
  deriving DecidableEq, Repr

/-- The full TcpHeader field group (10_state.md R11 to R21), the result of HDR.PARSE and SEG.FROM_BYTES. -/
structure TcpHeader where
  sourcePort : Word16
  destinationPort : Word16
  sequenceNumber : Word32
  acknowledgmentNumber : Word32
  dataOffset : BitVec 4
  reserved : BitVec 4
  flags : TcpFlags
  windowSize : Word16
  checksum : Word16
  urgentPointer : Word16
  options : Bytes
  deriving DecidableEq, Repr

/-- A Segment (10_state.md R23, 42_segment.md R150): one TcpHeader and one payload, a value. -/
structure Segment where
  header : TcpHeader
  payload : Bytes
  deriving DecidableEq, Repr

/-- The instructions, one constructor per row of spec/opcode_table.json. -/
inductive Instr where
  /-- CSUM.COMPUTE (40_checksum.md R97). -/
  | csumCompute (ph : PseudoHeader) (hb pl : Bytes)
  /-- CSUM.VERIFY (R98). -/
  | csumVerify (ph : PseudoHeader) (hb pl : Bytes)
  /-- HDR.BUILD (41_header_codec.md R130). -/
  | hdrBuild (f : Fields) (pl : Bytes) (ph : PseudoHeader)
  /-- HDR.PARSE (R135). -/
  | hdrParse (b : Bytes)
  /-- SEG.TO_BYTES (42_segment.md R151). -/
  | segToBytes (f : Fields) (pl : Bytes) (ph : PseudoHeader)
  /-- SEG.FROM_BYTES (R152). -/
  | segFromBytes (b : Bytes)
  /-- The reserved OP value 0 (R75). -/
  | reservedOp0
  /-- The reserved OP value 7 (R75). -/
  | reservedOp7
  /-- TCPHDR.W0, header bytes 0..3 (R60). -/
  | tcphdrW0 (sourcePort destinationPort : Word16)
  /-- TCPHDR.W1, header bytes 4..7 (R60). -/
  | tcphdrW1 (sequenceNumber : Word32)
  /-- TCPHDR.W2, header bytes 8..11 (R60). -/
  | tcphdrW2 (acknowledgmentNumber : Word32)
  /-- TCPHDR.W3, header bytes 12..15 (R61). -/
  | tcphdrW3 (dataOffset reserved : BitVec 4) (flags : TcpFlags) (windowSize : Word16)
  /-- TCPHDR.W4, header bytes 16..19 (R60). -/
  | tcphdrW4 (checksum urgentPointer : Word16)
  /-- TCPHDR.OPT, one word of the options area, four raw bytes in order (R63). -/
  | tcphdrOpt (x0 x1 x2 x3 : Byte)
  /-- PSEUDO.W0, pseudo-header bytes 0..3 (R64). -/
  | pseudoW0 (src : Word32)
  /-- PSEUDO.W1, pseudo-header bytes 4..7 (R64). -/
  | pseudoW1 (dst : Word32)
  /-- PSEUDO.W2, pseudo-header bytes 8..11: a zero byte, the protocol, the TCP length (R64). -/
  | pseudoW2 (protocol : Byte) (tcpLength : Word16)
  /-- STATUS, the two-bit response status code (R72). -/
  | status (code : BitVec 2)
  deriving DecidableEq, Repr

/-- The operand groups of a command record (10_state.md R26). An operation reads only the groups R70 lists for it. -/
structure Operands where
  ph : PseudoHeader
  f : Fields
  hb : Bytes
  pl : Bytes
  b : Bytes
  deriving DecidableEq, Repr

/-- What stands at the block's input.

`command` is the command record `CMD`, presented whole (R26, R55); its operands have no packing into bits (R71).
`wire` is one word of the checksum input stream as bytes, first byte first, for the reference serial datapath of R101
(DESIGN CHOICE, log entry 1). `status` is the two-bit status code of a response (DESIGN CHOICE, log entry 2). -/
inductive Presented where
  | command (op : BitVec 3) (operands : Operands)
  | wire (bytes : Bytes)
  | status (code : BitVec 2)
  deriving DecidableEq, Repr

end Sys2Proof
end

