-- ==== Sys2Proof/Machine/Bytes.lean ====
section
/-! DEFINITION. Byte sequences: big-endian assembly and its inverse, the store into a result sequence, subsequences
(00_scope.md, "Byte sequences", "Big-endian assembly", "Pseudocode primitives"; 20_memory.md R44, R50). -/

namespace Sys2Proof.Machine

/-- `B[i]`. No operation reads at or beyond the length (R57); off that domain the value is 0 (log entry 12). -/
def byteAt (bs : Bytes) (i : Nat) : Byte := bs.getD i 0

/-- `be16(B, i) = B[i] * 256 + B[i+1]`, `MemRead(B, i, 2)`. -/
def be16 (bs : Bytes) (i : Nat) : Word16 := byteAt bs i ++ byteAt bs (i + 1)

/-- `be32(B, i)`, `MemRead(B, i, 4)`. -/
def be32 (bs : Bytes) (i : Nat) : Word32 := be16 bs i ++ be16 bs (i + 2)

/-- `put16(v) = [v[15:8], v[7:0]]`. -/
def put16 (v : Word16) : Bytes := [v.extractLsb' 8 8, v.extractLsb' 0 8]

/-- `put32(v) = [v[31:24], v[23:16], v[15:8], v[7:0]]`. -/
def put32 (v : Word32) : Bytes :=
  [v.extractLsb' 24 8, v.extractLsb' 16 8, v.extractLsb' 8 8, v.extractLsb' 0 8]

/-- `MemWrite(O, off, 2, v)`: the two big-endian bytes of `v` stored at `O[off..off+2)`. -/
def memWrite16 (bs : Bytes) (off : Nat) (v : Word16) : Bytes :=
  (bs.set off (v.extractLsb' 8 8)).set (off + 1) (v.extractLsb' 0 8)

/-- `B[a..b)`. -/
def slice (bs : Bytes) (a b : Nat) : Bytes := (bs.drop a).take (b - a)

end Sys2Proof.Machine
end

