-- ==== Sys2Proof/Machine/Flags.lean ====
section
/-! DEFINITION. The bit-field accessors over the raw byte pair `P = be16(H, 12)` (41_header_codec.md R110 to R122).

The block has no condition-code register (10_state.md R28): the TCP flags are data, and these accessors are the only flag
computation the spec gives. Each is a pure total function (R122). -/

namespace Sys2Proof.Machine

/-- `DOFF_MASK` (R110); its shift is 12. -/
def doffMask : Word16 := 0xF000
/-- `RSV_MASK` (R110); its shift is 8. -/
def rsvMask : Word16 := 0x0F00
/-- `CWR` (R110, R62). -/
def cwrMask : Word16 := 0x0080
/-- `ECE` (R110, R62). -/
def eceMask : Word16 := 0x0040
/-- `URG` (R110, R62). -/
def urgMask : Word16 := 0x0020
/-- `ACK` (R110, R62). -/
def ackMask : Word16 := 0x0010
/-- `PSH` (R110, R62). -/
def pshMask : Word16 := 0x0008
/-- `RST` (R110, R62). -/
def rstMask : Word16 := 0x0004
/-- `SYN` (R110, R62). -/
def synMask : Word16 := 0x0002
/-- `FIN` (R110, R62). -/
def finMask : Word16 := 0x0001

/-- The raw byte pair of a header (R110). -/
def rawPair (h : Bytes) : Word16 := be16 h 12

/-- `GET_DOFF` (R111). -/
def getDoff (p : Word16) : BitVec 4 := ((p &&& doffMask) >>> 12).setWidth 4

/-- `SET_DOFF` (R111). -/
def setDoff (p : Word16) (d : BitVec 4) : Word16 := (p &&& 0x0FFF) ||| (d.setWidth 16 <<< 12)

/-- `GET_RSV` (R112). -/
def getRsv (p : Word16) : BitVec 4 := ((p &&& rsvMask) >>> 8).setWidth 4

/-- `CLR_RSV` (R112). -/
def clrRsv (p : Word16) : Word16 := p &&& 0xF0FF

/-- The common form of the eight flag extractors (R113 to R120): `(P & mask) != 0`. -/
def getFlag (mask p : Word16) : Bool := (p &&& mask) != 0

/-- The common form of the eight flag injectors (R113 to R120): `if b then P | mask else P & ~mask`. -/
def setFlag (mask p : Word16) (b : Bool) : Word16 := if b then p ||| mask else p &&& ~~~mask

/-- `GET_CWR` (R113). -/
def getCwr (p : Word16) : Bool := getFlag cwrMask p
/-- `SET_CWR` (R113). -/
def setCwr (p : Word16) (b : Bool) : Word16 := setFlag cwrMask p b
/-- `GET_ECE` (R114). -/
def getEce (p : Word16) : Bool := getFlag eceMask p
/-- `SET_ECE` (R114). -/
def setEce (p : Word16) (b : Bool) : Word16 := setFlag eceMask p b
/-- `GET_URG` (R115). -/
def getUrg (p : Word16) : Bool := getFlag urgMask p
/-- `SET_URG` (R115). -/
def setUrg (p : Word16) (b : Bool) : Word16 := setFlag urgMask p b
/-- `GET_ACK` (R116). -/
def getAck (p : Word16) : Bool := getFlag ackMask p
/-- `SET_ACK` (R116). -/
def setAck (p : Word16) (b : Bool) : Word16 := setFlag ackMask p b
/-- `GET_PSH` (R117). -/
def getPsh (p : Word16) : Bool := getFlag pshMask p
/-- `SET_PSH` (R117). -/
def setPsh (p : Word16) (b : Bool) : Word16 := setFlag pshMask p b
/-- `GET_RST` (R118). -/
def getRst (p : Word16) : Bool := getFlag rstMask p
/-- `SET_RST` (R118). -/
def setRst (p : Word16) (b : Bool) : Word16 := setFlag rstMask p b
/-- `GET_SYN` (R119). -/
def getSyn (p : Word16) : Bool := getFlag synMask p
/-- `SET_SYN` (R119). -/
def setSyn (p : Word16) (b : Bool) : Word16 := setFlag synMask p b
/-- `GET_FIN` (R120). -/
def getFin (p : Word16) : Bool := getFlag finMask p
/-- `SET_FIN` (R120). -/
def setFin (p : Word16) (b : Bool) : Word16 := setFlag finMask p b

/-- The flag part of `UNPACK` (R121): each flag individually masked. -/
def getFlags (p : Word16) : TcpFlags :=
  { cwr := getCwr p, ece := getEce p, urg := getUrg p, ack := getAck p,
    psh := getPsh p, rst := getRst p, syn := getSyn p, fin := getFin p }

/-- `if b then mask else 0`, a summand of `PACK` (R121). -/
def flagBit (mask : Word16) (b : Bool) : Word16 := if b then mask else 0

/-- The flag byte of `PACK` (R121), in the low half of the pair. -/
def flagBits (f : TcpFlags) : Word16 :=
  flagBit cwrMask f.cwr ||| flagBit eceMask f.ece ||| flagBit urgMask f.urg ||| flagBit ackMask f.ack |||
  flagBit pshMask f.psh ||| flagBit rstMask f.rst ||| flagBit synMask f.syn ||| flagBit finMask f.fin

/-- `PACK(d, flags)` (R121): the pair the serializer writes, its reserved bits zero. -/
def pack (d : BitVec 4) (f : TcpFlags) : Word16 := (d.setWidth 16 <<< 12) ||| flagBits f

/-- `UNPACK(P)` (R121). -/
def unpack (p : Word16) : BitVec 4 × BitVec 4 × TcpFlags := (getDoff p, getRsv p, getFlags p)

/-- The high half of TCPHDR.W3 with its reserved bits as given (30_encoding.md R61): `PACK` with the four reserved bits
of byte 12 filled in. The serializer never uses it; it is the layout of a received word. -/
def pairWithReserved (d r : BitVec 4) (f : TcpFlags) : Word16 := pack d f ||| (r.setWidth 16 <<< 8)

end Sys2Proof.Machine
end

