-- ==== Sys2Proof/Machine/Operands.lean ====
section
/-! DEFINITION. What the operations derive from their operands: the data offset and the padded options of a build
(30_encoding.md R69, 41_header_codec.md R131, R132), the admission conditions (R74), and the TcpHeader as an operand
(10_state.md R22). -/

namespace Sys2Proof

/-- R22: a TcpHeader value is valid when `data_offset` is in 5 to 15, `reserved` is 0 and the options fill the declared
length; the checksum is not regarded. -/
def TcpHeader.valid (h : TcpHeader) : Bool :=
  decide (5 ≤ h.dataOffset.toNat) && (h.reserved == 0) && (h.options.length == 4 * h.dataOffset.toNat - 20)

/-- A header's fields as the operand group F; `supply` says whether its `data_offset` is supplied (R26). -/
def TcpHeader.toFields (h : TcpHeader) (supply : Bool) : Fields :=
  { sourcePort := h.sourcePort, destinationPort := h.destinationPort, sequenceNumber := h.sequenceNumber,
    acknowledgmentNumber := h.acknowledgmentNumber, dataOffsetValid := supply, dataOffset := h.dataOffset,
    flags := h.flags, windowSize := h.windowSize, urgentPointer := h.urgentPointer, options := h.options }

/-- `Segment.total_length` (R79, R34, R153): `4 * data_offset + len(payload)`. -/
def Segment.totalLength (seg : Segment) : Nat := 4 * seg.header.dataOffset.toNat + seg.payload.length

end Sys2Proof

namespace Sys2Proof.Machine

/-- `d = 5 + ceil(len(options) / 4)` (R69, R131), before the test that it fits four bits. -/
def derivedOffset (options : Bytes) : Nat := 5 + (options.length + 3) / 4

/-- The data-offset check of HDR.BUILD (R131): the derived value fits four bits, and a supplied one equals it. -/
def offsetConsistent (f : Fields) : Bool :=
  decide (derivedOffset f.options ≤ Config.doffMax) &&
    (!f.dataOffsetValid || f.dataOffset.toNat == derivedOffset f.options)

/-- Option padding (R132): OPT_PAD_BYTE appended up to `4 * (d - 5)` bytes. -/
def padOptions (options : Bytes) : Bytes :=
  options ++ List.replicate (4 * (derivedOffset options - 5) - options.length) Config.optPadByte

/-- R74: `PH.protocol = 6`. -/
def isTcp (ph : PseudoHeader) : Bool := ph.protocol == Config.protoTcp

/-- R74, OP 1 and 2: `len(HB) + len(PL) <= 65535`. -/
def checksumFits (hb pl : Bytes) : Bool := decide (hb.length + pl.length ≤ Config.segMax)

/-- R74, OP 3 and 5: `4 * d + len(PL) <= 65535`, asked only when the data-offset check passes. -/
def buildFits (f : Fields) (pl : Bytes) : Bool :=
  !offsetConsistent f || decide (4 * derivedOffset f.options + pl.length ≤ Config.segMax)

end Sys2Proof.Machine
end

