-- ==== Sys2Proof/WellFormed.lean ====
section
/-! DEFINITION. Well-formed instructions: the admitted domain of 30_encoding.md R74, R75. -/

namespace Sys2Proof

/-- Why an instruction is outside the admitted domain. -/
inductive IllFormed where
  /-- `OP` is 0 or 7 (R75). -/
  | reservedOp
  /-- The protocol number is not 6 (R74). -/
  | protocolNotTcp
  /-- Header plus payload exceed 65535 bytes (R74). -/
  | segmentTooLong
  /-- `STATUS` is 3 (R75). -/
  | reservedStatus
  deriving DecidableEq, Repr

/-- The two conditions of a command with a pseudo-header; `fits` is its length condition. -/
def checkSegment (ph : PseudoHeader) (fits : Bool) : Option IllFormed :=
  if Machine.isTcp ph then (if fits then none else some .segmentTooLong) else some .protocolNotTcp

/-- The first condition of R74, R75 that an instruction breaks. Scalar widths are types, and BUF_MAX is unbounded. -/
def Instr.illFormed : Instr → Option IllFormed
  | .csumCompute ph hb pl => checkSegment ph (Machine.checksumFits hb pl)
  | .csumVerify ph hb pl => checkSegment ph (Machine.checksumFits hb pl)
  | .hdrBuild f pl ph => checkSegment ph (Machine.buildFits f pl)
  | .hdrParse _ => none
  | .segToBytes f pl ph => checkSegment ph (Machine.buildFits f pl)
  | .segFromBytes _ => none
  | .reservedOp0 => some .reservedOp
  | .reservedOp7 => some .reservedOp
  | .tcphdrW0 _ _ => none
  | .tcphdrW1 _ => none
  | .tcphdrW2 _ => none
  | .tcphdrW3 _ _ _ _ => none
  | .tcphdrW4 _ _ => none
  | .tcphdrOpt _ _ _ _ => none
  | .pseudoW0 _ => none
  | .pseudoW1 _ => none
  | .pseudoW2 protocol _ => if protocol == Config.protoTcp then none else some .protocolNotTcp
  | .status code => if code == 3 then some .reservedStatus else none

/-- An instruction is well-formed when it is admitted (R74, R75). -/
def Instr.wf (i : Instr) : Bool := i.illFormed.isNone

end Sys2Proof
end

