-- ==== Sys2Proof/Decode.lean ====
section
/-! DEFINITION. Decoding: from what stands at the block's input to an instruction, total, rejecting by name; and the
encoder, written from the same tables (30_encoding.md R60 to R64, R70, R72).

A command is told by its 3-bit OP (R70) and takes the operand groups the table of R70 lists for it, as structured values
(R71). A wire word has no selector of its own: which row it is follows from its place in the checksum input stream, twelve
pseudo-header bytes and then the header (R60, R64, R65), that is from `POS`, which 10_state.md R31 calls the nearest
analogue of a program counter. -/

namespace Sys2Proof

/-- Why a presented item is no instruction. -/
inductive DecodeError where
  /-- A wire word is not four bytes long (R60, R64). -/
  | notAWord (length : Nat)
  /-- No row of the table lays out the stream at this position: not a multiple of 4, or at or beyond byte 72, the end of
  the longest header (R65, R68). -/
  | noLayoutAt (pos : Nat)
  /-- Byte 8 of the pseudo-header is not zero (R64). -/
  | pseudoZeroByte
  deriving DecidableEq, Repr

/-- The rows of format WIRE32, as places in the checksum input stream (R64, R60, R63, R65). -/
inductive Slot where
  | pseudoW0 | pseudoW1 | pseudoW2 | tcphdrW0 | tcphdrW1 | tcphdrW2 | tcphdrW3 | tcphdrW4 | tcphdrOpt
  deriving DecidableEq, Repr

/-- The row that lays out the word at stream position `pos` (R65: pseudo-header bytes 0..11, then the header).

DESIGN CHOICE (log entry 1): positions 32 to 68 are the options area of the longest header, whatever `data_offset` the word
TCPHDR.W3 declared. The datapath inspects no byte (R106), so where the header ends (R63, R66) is not asked. -/
def slotAt (pos : Nat) : Option Slot :=
  if pos = 0 then some .pseudoW0
  else if pos = 4 then some .pseudoW1
  else if pos = 8 then some .pseudoW2
  else if pos = 12 then some .tcphdrW0
  else if pos = 16 then some .tcphdrW1
  else if pos = 20 then some .tcphdrW2
  else if pos = 24 then some .tcphdrW3
  else if pos = 28 then some .tcphdrW4
  else if 32 ≤ pos ∧ pos < 72 ∧ pos % 4 = 0 then some .tcphdrOpt
  else none

/-- The fields of a wire word, by the layout of its row (R60 to R64, R67). -/
def decodeWord (slot : Slot) (bs : Bytes) : Except DecodeError Instr :=
  match slot with
  | .pseudoW0 => .ok (.pseudoW0 (Machine.be32 bs 0))
  | .pseudoW1 => .ok (.pseudoW1 (Machine.be32 bs 0))
  | .pseudoW2 =>
    if Machine.byteAt bs 0 = 0 then .ok (.pseudoW2 (Machine.byteAt bs 1) (Machine.be16 bs 2))
    else .error .pseudoZeroByte
  | .tcphdrW0 => .ok (.tcphdrW0 (Machine.be16 bs 0) (Machine.be16 bs 2))
  | .tcphdrW1 => .ok (.tcphdrW1 (Machine.be32 bs 0))
  | .tcphdrW2 => .ok (.tcphdrW2 (Machine.be32 bs 0))
  | .tcphdrW3 =>
    let p := Machine.be16 bs 0
    .ok (.tcphdrW3 (Machine.getDoff p) (Machine.getRsv p) (Machine.getFlags p) (Machine.be16 bs 2))
  | .tcphdrW4 => .ok (.tcphdrW4 (Machine.be16 bs 0) (Machine.be16 bs 2))
  | .tcphdrOpt =>
    .ok (.tcphdrOpt (Machine.byteAt bs 0) (Machine.byteAt bs 1) (Machine.byteAt bs 2) (Machine.byteAt bs 3))

/-- A command by its OP, with the operand groups R70 lists for it and no other (R26, R70, R75). -/
def decodeCommand (op : BitVec 3) (o : Operands) : Instr :=
  match op.toNat with
  | 1 => .csumCompute o.ph o.hb o.pl
  | 2 => .csumVerify o.ph o.hb o.pl
  | 3 => .hdrBuild o.f o.pl o.ph
  | 4 => .hdrParse o.b
  | 5 => .segToBytes o.f o.pl o.ph
  | 6 => .segFromBytes o.b
  | 7 => .reservedOp7
  | _ => .reservedOp0

/-- The instruction an item at the block's input stands for, at stream position `pos`. -/
def decode (pos : Nat) : Presented → Except DecodeError Instr
  | .command op o => .ok (decodeCommand op o)
  | .wire bs =>
    if bs.length = 4 then
      match slotAt pos with
      | some slot => decodeWord slot bs
      | none => .error (.noLayoutAt pos)
    else .error (.notAWord bs.length)
  | .status code => .ok (.status code)

/-- Operand groups with nothing in them: zeros, empty sequences, and the one admitted protocol number.
They fill the groups an operation does not read (R26). DESIGN CHOICE (log entry 11). -/
def Operands.blank : Operands :=
  { ph := { src := 0, dst := 0, protocol := Config.protoTcp },
    f := { sourcePort := 0, destinationPort := 0, sequenceNumber := 0, acknowledgmentNumber := 0,
           dataOffsetValid := false, dataOffset := 0,
           flags := { cwr := false, ece := false, urg := false, ack := false,
                      psh := false, rst := false, syn := false, fin := false },
           windowSize := 0, urgentPointer := 0, options := [] },
    hb := [], pl := [], b := [] }

/-- The encoder: the OP and operand groups of R70, the wire words of R60 to R64, the status code of R72. -/
def encode : Instr → Presented
  | .csumCompute ph hb pl => .command 1 { Operands.blank with ph := ph, hb := hb, pl := pl }
  | .csumVerify ph hb pl => .command 2 { Operands.blank with ph := ph, hb := hb, pl := pl }
  | .hdrBuild f pl ph => .command 3 { Operands.blank with f := f, pl := pl, ph := ph }
  | .hdrParse b => .command 4 { Operands.blank with b := b }
  | .segToBytes f pl ph => .command 5 { Operands.blank with f := f, pl := pl, ph := ph }
  | .segFromBytes b => .command 6 { Operands.blank with b := b }
  | .reservedOp0 => .command 0 Operands.blank
  | .reservedOp7 => .command 7 Operands.blank
  | .tcphdrW0 sp dp => .wire (Machine.put16 sp ++ Machine.put16 dp)
  | .tcphdrW1 q => .wire (Machine.put32 q)
  | .tcphdrW2 a => .wire (Machine.put32 a)
  | .tcphdrW3 d r f w => .wire (Machine.put16 (Machine.pairWithReserved d r f) ++ Machine.put16 w)
  | .tcphdrW4 k u => .wire (Machine.put16 k ++ Machine.put16 u)
  | .tcphdrOpt x0 x1 x2 x3 => .wire [x0, x1, x2, x3]
  | .pseudoW0 a => .wire (Machine.put32 a)
  | .pseudoW1 a => .wire (Machine.put32 a)
  | .pseudoW2 p l => .wire ([0x00, p] ++ Machine.put16 l)
  | .status code => .status code

/-- Whether `pos` is a place in the stream where an instruction's encoding is read as that instruction. Commands and the
status code are read at any position; a wire word at the position of its row (R60, R63, R64, R65). -/
def Instr.standsAt (i : Instr) (pos : Nat) : Bool :=
  match i with
  | .csumCompute _ _ _ => true
  | .csumVerify _ _ _ => true
  | .hdrBuild _ _ _ => true
  | .hdrParse _ => true
  | .segToBytes _ _ _ => true
  | .segFromBytes _ => true
  | .reservedOp0 => true
  | .reservedOp7 => true
  | .pseudoW0 _ => decide (pos = 0)
  | .pseudoW1 _ => decide (pos = 4)
  | .pseudoW2 _ _ => decide (pos = 8)
  | .tcphdrW0 _ _ => decide (pos = 12)
  | .tcphdrW1 _ => decide (pos = 16)
  | .tcphdrW2 _ => decide (pos = 20)
  | .tcphdrW3 _ _ _ _ => decide (pos = 24)
  | .tcphdrW4 _ _ => decide (pos = 28)
  | .tcphdrOpt _ _ _ _ => decide (32 ≤ pos ∧ pos < 72 ∧ pos % 4 = 0)
  | .status _ => true

/-- The big-endian bytes of a number of `nbits` bits: a wire word as it is sent (R44, R60). -/
def bytesOfNumber (nbits w : Nat) : Bytes :=
  (List.range (nbits / 8)).reverse.map fun k => BitVec.ofNat 8 (w >>> (8 * k))

/-- The item whose bits are `w`, `nbits` of them, as the opcode table numbers them.

Up to 8 bits: the OP of a command with blank operand groups. 2 bits: the status code. Otherwise a wire word. A 5-bit tail
above OP that is not zero is no command, and the one byte is then no wire word either. -/
def itemOfTableWord (nbits w : Nat) : Presented :=
  if nbits = 2 then .status (BitVec.ofNat 2 w)
  else if nbits ≤ 8 ∧ w < 8 then .command (BitVec.ofNat 3 w) Operands.blank
  else .wire (bytesOfNumber nbits w)

/-- The stream position at which a table word is read. A 32-bit pattern alone does not name its row: PSEUDO.W2 is the only
row of format WIRE32 with bits the table fixes (31..24 zero, and a protocol that is "always 00000110"), so a word with those
bits is read as that row, and any other as the first wire row of the table, TCPHDR.W0. DESIGN CHOICE (log entry 11). -/
def positionOfTableWord (w : Nat) : Nat := if w / 2 ^ 16 = 6 then 8 else 12

/-- The instruction the decoder reads from a table word. -/
def decodeTableWord (nbits w : Nat) : Option Instr :=
  (decode (positionOfTableWord w) (itemOfTableWord nbits w)).toOption

end Sys2Proof
end

