-- ==== Sys2Proof/Machine/State.lean ====
section
/-! DEFINITION. The state of the machine, the reasons a step can stop, and the state after reset (10_state.md R10, R26 to
R30, R33).

The block keeps nothing between operations (R10). State holds what the spec gives it all the same: the command record CMD
(R26), the response record RSP (R27), and the internal datapath registers ACC, ODD and POS (R29, R30). There is no program
counter, no mode, no interrupt state and no memory of its own (R31, R41, R171, R173). -/

namespace Sys2Proof.Machine

/-- The two errors of the block (60_exceptions.md R160). -/
inductive ParseError where
  /-- `TooShort` (R161). -/
  | tooShort
  /-- `InvalidDataOffset` (R162, R163). -/
  | invalidDataOffset
  deriving DecidableEq, Repr

/-- The result fields of a response (10_state.md R27); `none` is an absent field. -/
structure Results where
  csum : Option Word16
  valid : Option Bool
  h : Option TcpHeader
  out : Option Bytes
  pl : Option Bytes
  totalLen : Option Nat
  deriving DecidableEq, Repr

/-- Every result field absent. -/
def Results.empty : Results :=
  { csum := none, valid := none, h := none, out := none, pl := none,
    totalLen := none }

/-- A response (30_encoding.md R73): `OK` with its results, or an error status with nothing else. -/
inductive Response where
  | ok (r : Results)
  | err (e : ParseError)
  deriving DecidableEq, Repr

/-- The latch `ODD` of R29 and R101: a byte and its valid bit. -/
structure OddLatch where
  valid : Bool
  byte : Byte
  deriving DecidableEq, Repr

/-- The machine.

`presented` is the command input: what the host presents, in the order it presents it, each item taken whole when the one
before it is answered (R52, R55, R192). Its first entry is `CMD`. `rsp` is `RSP`; `none` says no response is pending and
`RSP` is not valid (R33). How long a response stays pending is a DESIGN CHOICE (log entry 16). `acc`, `odd` and `pos` are `ACC`, `ODD` and `POS`. -/
structure State where
  presented : List Presented
  rsp : Option Response
  acc : Word32
  odd : OddLatch
  pos : Nat
  deriving DecidableEq, Repr

/-- Faults: the block has none. Its errors are responses (60_exceptions.md R164), and nothing else stops it. -/
inductive Fault where
  deriving DecidableEq, Repr

/-- Refusals: what the spec gives no outcome (60_exceptions.md R180, 92_eei_decisions.md D31). -/
inductive Refusal where
  /-- exec raises it for an instruction that has no meaning yet. Safe: nothing can be proved of the instruction. -/
  | notModelled (mnemonic : String)
  /-- The reserved OP values 0 and 7 raise it (R75). Safe: the spec refuses the command. -/
  | reservedOp (op : BitVec 3)
  /-- CSUM.COMPUTE, CSUM.VERIFY, HDR.BUILD, SEG.TO_BYTES and PSEUDO.W2 raise it when the protocol is not 6 (R74).
  Safe: the spec refuses the command. -/
  | protocolNotTcp (protocol : Byte)
  /-- The same four operations raise it when header plus payload exceed 65535 bytes (R74). Safe: the spec refuses the
  command. -/
  | segmentTooLong (length : Nat)
  /-- STATUS raises it for the code 3, "reserved and never produced" (R75). Safe: the spec gives the code no response. -/
  | reservedStatus
  /-- step raises it for an item that decodes to no instruction. Safe: the spec lays out no such word. -/
  | undecodable (reason : DecodeError)
  deriving DecidableEq, Repr

/-- The machine right after reset (R33, R185): nothing presented, no response pending, ACC 0, ODD not valid, POS 0.
The byte behind ODD's clear valid bit is 0: DESIGN CHOICE (log entry 7), the spec gives it no value. -/
def State.reset : State :=
  { presented := [], rsp := none, acc := 0, odd := { valid := false, byte := 0 }, pos := 0 }

end Sys2Proof.Machine
end

