-- ==== Sys2Proof/Machine/Ops.lean ====
section
/-! DEFINITION. The named operations over the state: taking what the host presents, the reference serial datapath, giving a
response, raising an error, refusing (40_checksum.md R101, 60_exceptions.md R164, R180). -/

namespace Sys2Proof.Machine

/-! ### The reference serial datapath (R101) -/

/-- `start`: `ACC <- 0 ; ODD.valid <- 0 ; POS <- 0`. -/
def State.start (s : State) : State := { s with acc := 0, odd := { s.odd with valid := false }, pos := 0 }

/-- `byte b` of R101: the first byte of a word is latched in ODD, the second completes the word and adds it to ACC. -/
def State.feedByte (s : State) (b : Byte) : State :=
  if s.odd.valid then
    { s with acc := s.acc + (s.odd.byte ++ b : Word16).setWidth 32,
             odd := { s.odd with valid := false }, pos := s.pos + 1 }
  else { s with odd := { valid := true, byte := b }, pos := s.pos + 1 }

/-- The bytes of a sequence fed in order (R65, R101). -/
def State.feed (s : State) (bs : Bytes) : State := bs.foldl State.feedByte s

/-- `end` of R101, up to its result: a latched byte is the high half of a last word whose low half is zero. -/
def State.finish (s : State) : State :=
  if s.odd.valid then
    { s with acc := s.acc + (s.odd.byte ++ (0 : Byte) : Word16).setWidth 32, odd := { s.odd with valid := false } }
  else s

/-! ### Responses -/

/-- The response `r` given: RSP written, and the block idle again with its datapath cleared (R29, R33, R170).

DESIGN CHOICE (log entry 6): the datapath is cleared here and not only at the next `start`, and the byte behind ODD's clear
valid bit is the one from before the command. DESIGN CHOICE (log entry 16): the response stays pending in RSP, an error too,
until the next response replaces it or a reset; no other step touches it. -/
def State.respond (s : State) (r : Response) : State := { s.start with rsp := some r }

/-- `R.STATUS <- OK` with the results of the operation (R27, R73). -/
def answer (r : Results) (s : State) : Host.Outcome State Fault Refusal := .next (s.respond (.ok r))

/-- `raise E`, the one exceptional outcome of the block (R164): the operation ends at once with `RSP.STATUS = E` and no
other result. Nothing is saved, no mode changes, control goes nowhere, and there is nothing to return from (R170). -/
def raise (e : ParseError) (s : State) : Host.Outcome State Fault Refusal := .next (s.respond (.err e))

/-- The status code of a response (R72). -/
def Response.code : Response → BitVec 2
  | .ok _ => 0
  | .err .tooShort => 1
  | .err .invalidDataOffset => 2

/-! ### Admission (R74, R180) -/

/-- The refusal of a command with a pseudo-header, if it is outside the admitted domain: `fits` is its length condition and
`length` its header plus payload. Which of two broken conditions is named is the model's (DESIGN CHOICE, log entry 8). -/
def refusalOf (ph : PseudoHeader) (fits : Bool) (length : Nat) : Option Refusal :=
  if isTcp ph then (if fits then none else some (.segmentTooLong length)) else some (.protocolNotTcp ph.protocol)

/-- R74 for OP 1 and 2. -/
def checksumRefusal (ph : PseudoHeader) (hb pl : Bytes) : Option Refusal :=
  refusalOf ph (checksumFits hb pl) (hb.length + pl.length)

/-- R74 for OP 3 and 5. -/
def buildRefusal (f : Fields) (pl : Bytes) (ph : PseudoHeader) : Option Refusal :=
  refusalOf ph (buildFits f pl) (4 * derivedOffset f.options + pl.length)

/-! ### The host's side of the input -/

/-- The next item the host presents, and the state with it taken (R55); nothing presented leaves the block idle. -/
def State.fetch (s : State) : Option (Presented × State) :=
  match s.presented with
  | [] => none
  | p :: rest => some (p, { s with presented := rest })

/-- The host presents one more item, to be taken after those already presented are answered (R52, R192). -/
def State.present (s : State) (p : Presented) : State := { s with presented := s.presented ++ [p] }

/-- The reset input (70_reset_and_hazards.md R185, R186): idle, whatever came before. -/
def State.resetInput (_ : State) : State := State.reset

/-- The next state of an outcome, if it is one. -/
def nextState? : Host.Outcome State Fault Refusal → Option State
  | .next s => some s
  | .fault _ => none
  | .refused _ => none

end Sys2Proof.Machine
end

