-- ==== Sys2Proof/Machine/Response.lean ====
section
/-! DEFINITION. The STATUS row of the opcode table (30_encoding.md R72) and the two reserved OP values (R75). -/

namespace Sys2Proof.Machine

/-- STATUS (R72): the status of a response, given by itself.

The codes 1 and 2 are `raise E` (R164). The code 0 is OK with every result field absent, since the row lists none (R27,
R73). The code 3 is reserved and never produced (R75): refused. Taking the row as a step is a DESIGN CHOICE (log entry 2). -/
def execStatus (code : BitVec 2) (s : State) : Host.Outcome State Fault Refusal :=
  match code.toNat with
  | 0 => answer Results.empty s
  | 1 => raise .tooShort s
  | 2 => raise .invalidDataOffset s
  | _ => .refused .reservedStatus

/-- OP 0 (R75): reserved, "A command carrying one is refused." -/
def execReservedOp0 (_ : State) : Host.Outcome State Fault Refusal := .refused (.reservedOp 0)

/-- OP 7 (R75): reserved, "A command carrying one is refused." -/
def execReservedOp7 (_ : State) : Host.Outcome State Fault Refusal := .refused (.reservedOp 7)

end Sys2Proof.Machine
end

