-- ==== Sys2Proof/Machine/Checksum.lean ====
section
/-! DEFINITION. The checksum engine: CSUM.COMPUTE and CSUM.VERIFY (40_checksum.md). -/

namespace Sys2Proof.Machine

/-- `PHBYTES(ph, L)` (R90, layout R64). -/
def phBytes (ph : PseudoHeader) (length : Nat) : Bytes :=
  put32 ph.src ++ put32 ph.dst ++ [0x00, ph.protocol] ++ put16 (BitVec.ofNat 16 length)

/-- `STREAM(ph, hb, pl)` (R91, R65, R48): the TCP length is derived here, and an odd count is padded with one zero byte. -/
def stream (ph : PseudoHeader) (hb pl : Bytes) : Bytes :=
  let d := phBytes ph (hb.length + pl.length) ++ hb ++ pl
  if d.length % 2 = 1 then d ++ [0x00] else d

/-- `SUM16(S)` (R92) of an even-length sequence: the plain sum of its big-endian words, a natural number.
An odd last byte, which no stream has, counts for nothing (log entry 12). -/
def sum16 : Bytes → Nat
  | a :: b :: rest => (a ++ b : Word16).toNat + sum16 rest
  | _ => 0

/-- The passes of `FOLD`, at most `fuel` of them. -/
def foldPasses : Nat → Nat → Nat
  | 0, x => x
  | fuel + 1, x => if 0x10000 ≤ x then foldPasses fuel (x % 0x10000 + x / 0x10000) else x

/-- `FOLD(x)`, end-around carry (R93). Each pass makes `x` smaller, so `x` passes are enough. -/
def fold (x : Nat) : Nat := foldPasses x x

/-- `CPL16(v) = 0xFFFF - v` (R95). -/
def cpl16 (v : Nat) : Word16 := BitVec.ofNat 16 (0xFFFF - v)

/-- `RAWCSUM(ph, hb, pl)` (R96), the one summing and folding definition of both operations (R99). -/
def rawCsum (ph : PseudoHeader) (hb pl : Bytes) : Word16 := cpl16 (fold (sum16 (stream ph hb pl)))

/-- The result of CSUM.COMPUTE (R97): the raw checksum, 0x0000 written as 0xFFFF. -/
def csum (ph : PseudoHeader) (hb pl : Bytes) : Word16 :=
  if rawCsum ph hb pl = 0x0000 then 0xFFFF else rawCsum ph hb pl

/-- The result of CSUM.VERIFY (R98), with no substitution. -/
def verifies (ph : PseudoHeader) (hb pl : Bytes) : Bool := rawCsum ph hb pl == 0x0000

/-- One's-complement addition `a (+) b` (R100). -/
def oneAdd (a b : Nat) : Nat := fold (a + b)

/-- The result of the reference serial datapath, `CPL16(FOLD(ACC))` after `end` (R101). -/
def State.datapathResult (s : State) : Word16 := cpl16 (fold s.finish.acc.toNat)

/-- Header bytes with the checksum field, bytes 16 and 17, set to zero (R106). -/
def zeroChecksum (hb : Bytes) : Bytes := memWrite16 hb 16 0

/-- `VERIFY.RECOMPUTE` (30_encoding.md R79), a pseudo-operation: the expansion's CSUM.COMPUTE compared with the stored value.
Defined only when the header reaches its checksum and CSUM.COMPUTE admits the operands (R74). -/
def verifyRecompute (ph : PseudoHeader) (hb pl : Bytes) : Option Bool :=
  match checksumRefusal ph (zeroChecksum hb) pl with
  | some _ => none
  | none => if 18 ≤ hb.length then some (csum ph (zeroChecksum hb) pl == be16 hb 16) else none

/-- CSUM.COMPUTE (R97). -/
def execCsumCompute (ph : PseudoHeader) (hb pl : Bytes) (s : State) : Host.Outcome State Fault Refusal :=
  match checksumRefusal ph hb pl with
  | some r => .refused r
  | none => answer { Results.empty with csum := some (csum ph hb pl) } s

/-- CSUM.VERIFY (R98). A checksum that does not verify is a result, not an error (R172). -/
def execCsumVerify (ph : PseudoHeader) (hb pl : Bytes) (s : State) : Host.Outcome State Fault Refusal :=
  match checksumRefusal ph hb pl with
  | some r => .refused r
  | none => answer { Results.empty with valid := some (verifies ph hb pl) } s

end Sys2Proof.Machine
end

