-- ==== Sys2Proof/Machine/Header.lean ====
section
/-! DEFINITION. The header codec: HDR.BUILD and HDR.PARSE (41_header_codec.md). -/

namespace Sys2Proof.Machine

/-- Steps 2 and 3 of HDR.BUILD (R132, R133): all fields at their positions (R42), the checksum field zero. -/
def assemble (f : Fields) : Bytes :=
  put16 f.sourcePort ++ put16 f.destinationPort ++ put32 f.sequenceNumber ++ put32 f.acknowledgmentNumber ++
  put16 (pack (BitVec.ofNat 4 (derivedOffset f.options)) f.flags) ++ put16 f.windowSize ++
  [0x00, 0x00] ++ put16 f.urgentPointer ++ padOptions f.options

/-- HDR.BUILD as a function (R130): step 1 the data-offset check (R131), step 4 the checksum over the assembled bytes and
the payload, stored at bytes 16 and 17 (R134). -/
def buildHeader (f : Fields) (pl : Bytes) (ph : PseudoHeader) : Except ParseError Bytes :=
  if offsetConsistent f then .ok (memWrite16 (assemble f) 16 (csum ph (assemble f) pl))
  else .error .invalidDataOffset

/-- Steps 3 and 4 of HDR.PARSE (R138, R139): every field copied out as found. -/
def extractHeader (b : Bytes) : TcpHeader :=
  let p := rawPair b
  { sourcePort := be16 b 0, destinationPort := be16 b 2, sequenceNumber := be32 b 4,
    acknowledgmentNumber := be32 b 8, dataOffset := getDoff p, reserved := getRsv p, flags := getFlags p,
    windowSize := be16 b 14, checksum := be16 b 16, urgentPointer := be16 b 18,
    options := slice b 20 (4 * (getDoff p).toNat) }

/-- `MemRead(B, 12, 1)[7:4]`, step 2 of HDR.PARSE (R137). -/
def declaredOffset (b : Bytes) : Nat := ((byteAt b 12).extractLsb' 4 4).toNat

/-- HDR.PARSE as a function (R135): the length test first (R136), then the declared length (R137). -/
def parseHeader (b : Bytes) : Except ParseError TcpHeader :=
  if b.length < Config.hdrMin then .error .tooShort
  else if b.length < 4 * declaredOffset b ∨ 4 * declaredOffset b < Config.hdrMin then .error .invalidDataOffset
  else .ok (extractHeader b)

/-- HDR.BUILD (R130). -/
def execHdrBuild (f : Fields) (pl : Bytes) (ph : PseudoHeader) (s : State) : Host.Outcome State Fault Refusal :=
  match buildRefusal f pl ph with
  | some r => .refused r
  | none =>
    match buildHeader f pl ph with
    | .error e => raise e s
    | .ok h => answer { Results.empty with out := some h } s

/-- HDR.PARSE (R135). The checksum is not verified (R140). -/
def execHdrParse (b : Bytes) (s : State) : Host.Outcome State Fault Refusal :=
  match parseHeader b with
  | .error e => raise e s
  | .ok h => answer { Results.empty with h := some h } s

end Sys2Proof.Machine
end

