-- ==== Sys2Proof/Machine/Segment.lean ====
section
/-! DEFINITION. The segment operations: SEG.TO_BYTES and SEG.FROM_BYTES (42_segment.md). -/

namespace Sys2Proof.Machine

/-- The payload part of a segment byte sequence with header `h` (R152, 30_encoding.md R66). -/
def payloadOf (h : TcpHeader) (b : Bytes) : Bytes := slice b (4 * h.dataOffset.toNat) b.length

/-- SEG.TO_BYTES (R151): HDR.BUILD, then the payload appended; an error of HDR.BUILD is passed up unchanged (R169). -/
def execSegToBytes (f : Fields) (pl : Bytes) (ph : PseudoHeader) (s : State) : Host.Outcome State Fault Refusal :=
  match buildRefusal f pl ph with
  | some r => .refused r
  | none =>
    match buildHeader f pl ph with
    | .error e => raise e s
    | .ok h => answer { Results.empty with out := some (h ++ pl), totalLen := some (h.length + pl.length) } s

/-- SEG.FROM_BYTES (R152): HDR.PARSE, the rest of the buffer as payload; an error is passed up unchanged (R169). -/
def execSegFromBytes (b : Bytes) (s : State) : Host.Outcome State Fault Refusal :=
  match parseHeader b with
  | .error e => raise e s
  | .ok h =>
    answer { Results.empty with h := some h, pl := some (payloadOf h b), totalLen := some b.length } s

end Sys2Proof.Machine
end

