-- ==== Sys2Proof/Machine/Wire.lean ====
section
/-! DEFINITION. The nine wire words of the opcode table as steps of the reference serial datapath.

The table calls these rows data layouts, not operations. The effect the spec gives a word of the checksum input stream is
that its bytes, laid out as the row says (30_encoding.md R60 to R64), go through the datapath of 40_checksum.md R101 in
the order of R65: ACC, ODD and POS change and nothing else does. Taking one word as one step is a DESIGN CHOICE (log
entry 1). The engine inspects none of the bytes (R106). -/

namespace Sys2Proof.Machine

/-- The word fed to the datapath. -/
def feedWord (bs : Bytes) (s : State) : Host.Outcome State Fault Refusal := .next (s.feed bs)

/-- TCPHDR.W0 (R60): source_port, destination_port. -/
def execTcphdrW0 (sp dp : Word16) (s : State) : Host.Outcome State Fault Refusal := feedWord (put16 sp ++ put16 dp) s

/-- TCPHDR.W1 (R60): sequence_number. -/
def execTcphdrW1 (q : Word32) (s : State) : Host.Outcome State Fault Refusal := feedWord (put32 q) s

/-- TCPHDR.W2 (R60): acknowledgment_number. -/
def execTcphdrW2 (a : Word32) (s : State) : Host.Outcome State Fault Refusal := feedWord (put32 a) s

/-- TCPHDR.W3 (R61): data_offset, reserved, flags, window_size. -/
def execTcphdrW3 (d r : BitVec 4) (f : TcpFlags) (w : Word16) (s : State) : Host.Outcome State Fault Refusal :=
  feedWord (put16 (pairWithReserved d r f) ++ put16 w) s

/-- TCPHDR.W4 (R60): checksum, urgent_pointer. -/
def execTcphdrW4 (k u : Word16) (s : State) : Host.Outcome State Fault Refusal := feedWord (put16 k ++ put16 u) s

/-- TCPHDR.OPT (R63): four option bytes in order. -/
def execTcphdrOpt (x0 x1 x2 x3 : Byte) (s : State) : Host.Outcome State Fault Refusal := feedWord [x0, x1, x2, x3] s

/-- PSEUDO.W0 (R64): src. -/
def execPseudoW0 (a : Word32) (s : State) : Host.Outcome State Fault Refusal := feedWord (put32 a) s

/-- PSEUDO.W1 (R64): dst. -/
def execPseudoW1 (a : Word32) (s : State) : Host.Outcome State Fault Refusal := feedWord (put32 a) s

/-- PSEUDO.W2 (R64): a zero byte, protocol, tcp_length. A protocol other than 6 is refused (R74). -/
def execPseudoW2 (p : Byte) (l : Word16) (s : State) : Host.Outcome State Fault Refusal :=
  if p = Config.protoTcp then feedWord ([0x00, p] ++ put16 l) s else .refused (.protocolNotTcp p)

end Sys2Proof.Machine
end

