-- ==== Sys2Proof/Machine/Dispatch.lean ====
section
/-! DEFINITION. exec: one arm per instruction, each one call of its meaning. -/

namespace Sys2Proof.Machine

def exec (i : Instr) (s : State) : Host.Outcome State Fault Refusal :=
  match i with
  | .csumCompute ph hb pl => Sys2Proof.Machine.execCsumCompute ph hb pl s
  | .csumVerify ph hb pl => Sys2Proof.Machine.execCsumVerify ph hb pl s
  | .hdrBuild f pl ph => Sys2Proof.Machine.execHdrBuild f pl ph s
  | .hdrParse b => Sys2Proof.Machine.execHdrParse b s
  | .segToBytes f pl ph => Sys2Proof.Machine.execSegToBytes f pl ph s
  | .segFromBytes b => Sys2Proof.Machine.execSegFromBytes b s
  | .reservedOp0 => Sys2Proof.Machine.execReservedOp0 s
  | .reservedOp7 => Sys2Proof.Machine.execReservedOp7 s
  | .tcphdrW0 sp dp => Sys2Proof.Machine.execTcphdrW0 sp dp s
  | .tcphdrW1 q => Sys2Proof.Machine.execTcphdrW1 q s
  | .tcphdrW2 a => Sys2Proof.Machine.execTcphdrW2 a s
  | .tcphdrW3 d r f w => Sys2Proof.Machine.execTcphdrW3 d r f w s
  | .tcphdrW4 k u => Sys2Proof.Machine.execTcphdrW4 k u s
  | .tcphdrOpt x0 x1 x2 x3 => Sys2Proof.Machine.execTcphdrOpt x0 x1 x2 x3 s
  | .pseudoW0 a => Sys2Proof.Machine.execPseudoW0 a s
  | .pseudoW1 a => Sys2Proof.Machine.execPseudoW1 a s
  | .pseudoW2 p l => Sys2Proof.Machine.execPseudoW2 p l s
  | .status code => Sys2Proof.Machine.execStatus code s

end Sys2Proof.Machine
end

