-- ==== Sys2Proof/Machine/Step.lean ====
section
/-! DEFINITION. One step of the block: the next item the host presents is taken whole, decoded at the current stream
position and performed to completion (20_memory.md R51, R52, R55). With nothing presented the block stays idle
(DESIGN CHOICE, log entry 3). -/

namespace Sys2Proof.Machine

def step (s : State) : Host.Outcome State Fault Refusal :=
  match s.fetch with
  | none => .next s
  | some (p, t) =>
    match decode t.pos p with
    | .ok i => exec i t
    | .error e => .refused (.undecodable e)

/-- `s` with the table word presented next. A wire word is read by the stream position, so for one the position is set too. -/
def State.withFetchWord (s : State) (nbits w : Nat) : State :=
  match itemOfTableWord nbits w with
  | .wire bs => { s with presented := .wire bs :: s.presented, pos := positionOfTableWord w }
  | .command op o => { s with presented := .command op o :: s.presented }
  | .status c => { s with presented := .status c :: s.presented }

end Sys2Proof.Machine
end

