-- ==== Sys2Proof/Safety.lean ====
section
/-! DEFINITION. The terms claims are stated in: which responses are legal, the invariant every step keeps, which
instructions are commands, and what a host that keeps the rules presents. -/

namespace Sys2Proof

/-- The six operations, the only instructions a command record can carry out (30_encoding.md R70). -/
def Instr.isOperation : Instr → Bool
  | .csumCompute _ _ _ => true
  | .csumVerify _ _ _ => true
  | .hdrBuild _ _ _ => true
  | .hdrParse _ => true
  | .segToBytes _ _ _ => true
  | .segFromBytes _ => true
  | .reservedOp0 => false
  | .reservedOp7 => false
  | .tcphdrW0 _ _ => false
  | .tcphdrW1 _ => false
  | .tcphdrW2 _ => false
  | .tcphdrW3 _ _ _ _ => false
  | .tcphdrW4 _ _ => false
  | .tcphdrOpt _ _ _ _ => false
  | .pseudoW0 _ => false
  | .pseudoW1 _ => false
  | .pseudoW2 _ _ => false
  | .status _ => false

/-- The nine wire words of the opcode table. -/
def Instr.isWireWord : Instr → Bool
  | .csumCompute _ _ _ => false
  | .csumVerify _ _ _ => false
  | .hdrBuild _ _ _ => false
  | .hdrParse _ => false
  | .segToBytes _ _ _ => false
  | .segFromBytes _ => false
  | .reservedOp0 => false
  | .reservedOp7 => false
  | .tcphdrW0 _ _ => true
  | .tcphdrW1 _ => true
  | .tcphdrW2 _ => true
  | .tcphdrW3 _ _ _ _ => true
  | .tcphdrW4 _ _ => true
  | .tcphdrOpt _ _ _ _ => true
  | .pseudoW0 _ => true
  | .pseudoW1 _ => true
  | .pseudoW2 _ _ => true
  | .status _ => false

/-- What the host may present: a command in the admitted domain (R74). -/
def Presented.admitted : Presented → Bool
  | .command op o => (decodeCommand op o).wf
  | .wire _ => false
  | .status _ => false

namespace Machine

/-- A built header, alone or in front of a payload: its declared length is 20 to 60 bytes and within the sequence, its
reserved bits are zero (10_state.md R16) and its checksum field is not zero (41_header_codec.md R130 corner c). -/
def builtHeader (out : Bytes) : Bool :=
  decide (5 ≤ declaredOffset out) && decide (4 * declaredOffset out ≤ out.length) &&
    (getRsv (rawPair out) == 0) && (be16 out 16 != 0)

/-- A parsed header: `data_offset` in 5 to 15 and options that fill the declared length (R15, R21). -/
def parsedHeader (h : TcpHeader) : Bool :=
  decide (5 ≤ h.dataOffset.toNat) && (h.options.length == 4 * h.dataOffset.toNat - 20)

/-- The results an OK response may carry: the fields one row of R70 lists, with what the rules say of their values.
No field at all is the response of the STATUS row. -/
def Results.legal (r : Results) : Bool :=
  match r.csum, r.valid, r.h, r.out, r.pl, r.totalLen with
  | none, none, none, none, none, none => true
  | some c, none, none, none, none, none => c != 0
  | none, some _, none, none, none, none => true
  | none, none, none, some o, none, none => builtHeader o && (o.length == 4 * declaredOffset o)
  | none, none, some h, none, none, none => parsedHeader h
  | none, none, none, some o, none, some n => builtHeader o && (n == o.length) && decide (n ≤ Config.segMax)
  | none, none, some h, none, some p, some n => parsedHeader h && (n == ({ header := h, payload := p } : Segment).totalLength)
  | _, _, _, _, _, _ => false

/-- The datapath holds what some prefix of a stream leaves in it: ODD is valid exactly after an odd count, ACC is at most
the largest sum of the words taken, so 32 bits do not overflow (R92, R101), and POS is within the longest header. -/
def State.datapathInv (s : State) : Bool :=
  (s.odd.valid == decide (s.pos % 2 = 1)) && decide (s.acc.toNat ≤ 0xFFFF * (s.pos / 2)) && decide (s.pos ≤ 72)

/-- A response pending is an error or carries legal results. -/
def State.responseInv (s : State) : Bool :=
  match s.rsp with
  | some (.ok r) => r.legal
  | some (.err _) => true
  | none => true

/-- The invariant every step keeps. -/
def State.inv (s : State) : Bool := s.datapathInv && s.responseInv

/-- A state no step stops: what a safe run consists of. -/
def State.Safe (s : State) : Prop := ∃ t, step s = .next t

/-- The instruction completes in `s` and the response pending after it is `r`. -/
def Responds (i : Instr) (s : State) (r : Response) : Prop := ∃ t, exec i s = .next t ∧ t.rsp = some r

/-- The instruction is refused in `s` (R180): no response, no next state. -/
def Refused (i : Instr) (s : State) : Prop := ∃ r, exec i s = .refused r

/-- The response of CSUM.COMPUTE: OK with RSP.CSUM and nothing else (10_state.md R27). -/
def csumResponse (c : Word16) : Response := .ok { Results.empty with csum := some c }

/-- The response of CSUM.VERIFY: OK with RSP.VALID and nothing else. -/
def validResponse (v : Bool) : Response := .ok { Results.empty with valid := some v }

/-- The response of HDR.BUILD: OK with RSP.OUT and nothing else. -/
def outResponse (out : Bytes) : Response := .ok { Results.empty with out := some out }

/-- The response of HDR.PARSE: OK with RSP.H and nothing else. -/
def headerResponse (h : TcpHeader) : Response := .ok { Results.empty with h := some h }

/-- The response of SEG.TO_BYTES: OK with RSP.OUT and RSP.TOTAL_LEN and nothing else. -/
def segmentBytesResponse (out : Bytes) (n : Nat) : Response :=
  .ok { Results.empty with out := some out, totalLen := some n }

/-- The response of SEG.FROM_BYTES: OK with RSP.H, RSP.PL and RSP.TOTAL_LEN and nothing else. -/
def segmentResponse (h : TcpHeader) (pl : Bytes) (n : Nat) : Response :=
  .ok { Results.empty with h := some h, pl := some pl, totalLen := some n }

/-- A sequence cut into words of four bytes, as a stream of wire words presents it (R60, R65). -/
def wireWords : Bytes → List Presented
  | a :: b :: c :: d :: rest => .wire [a, b, c, d] :: wireWords rest
  | _ => []

/-- The 16-bit big-endian words of an even-length sequence (R65). -/
def words16 : Bytes → List Nat
  | a :: b :: rest => (a.toNat * 256 + b.toNat) :: words16 rest
  | _ => []

/-- A sequence with one bit of one byte flipped (40_checksum.md R103). -/
def flipBit (bs : Bytes) (i k : Nat) : Bytes := bs.modify i fun b => b ^^^ BitVec.twoPow 8 k

end Machine

end Sys2Proof
end

