-- ==== Sys2Proof/Certificates/Slice0/Obligations.lean ====
section
/-! DEFINITION. The statements for the provers. Each docstring names the rule of spec/ it formalises; a clause that rests on
a choice of the model or on a decision the spec marks as its own says so. -/

open Sys2Proof Sys2Proof.Machine

/-! ### Encoding and decoding -/

/-- Decoding what the encoder writes gives the instruction back, at every position where the instruction is read, with
every operand at every value (30_encoding.md R60 to R64, R70, R72). Reading a wire word by its position is the model's choice
(log entry 1). -/
def Obligations.EncodingsDecodeToTheirInstruction : Prop :=
  ∀ (i : Instr) (pos : Nat), i.standsAt pos = true → decode pos (encode i) = .ok i

/-- A wire word that decodes is the encoding of what it decodes to: no bit of it is dropped (R60 to R64, R67). Reading a wire
word by its position is the model's choice (log entry 1). -/
def Obligations.WireWordsHaveOneReading : Prop :=
  ∀ (pos : Nat) (bs : Bytes) (i : Instr), decode pos (.wire bs) = .ok i → i.standsAt pos = true ∧ encode i = .wire bs

/-- Words written out from the layouts of R60 to R64 and the codes of R70 and R72 decode to what they stand for. -/
def Obligations.DecodedWordsFromTheTables : Prop :=
  decode 0 (.wire [0xC0, 0x00, 0x02, 0x01]) = .ok (.pseudoW0 0xC0000201) ∧
  decode 8 (.wire [0x00, 0x06, 0x00, 0x14]) = .ok (.pseudoW2 6 20) ∧
  decode 12 (.wire [0x30, 0x39, 0x00, 0x50]) = .ok (.tcphdrW0 12345 80) ∧
  decode 24 (.wire [0x6F, 0x92, 0xFA, 0xF0]) =
    .ok (.tcphdrW3 6 15 { cwr := true, ece := false, urg := false, ack := true,
                          psh := false, rst := false, syn := true, fin := false } 64240) ∧
  decode 68 (.wire [0x02, 0x04, 0x05, 0xB4]) = .ok (.tcphdrOpt 0x02 0x04 0x05 0xB4) ∧
  decode 0 (.command 4 { Operands.blank with b := [0x50] }) = .ok (.hdrParse [0x50]) ∧
  decode 0 (.status 2) = .ok (.status 2)

/-- A command is its OP and the operand groups the table of R70 lists, and no other group is read (R26, R70, R71, R75). The OP
values are the spec's decision D2. -/
def Obligations.OpSelectsTheOperation : Prop :=
  ∀ (pos : Nat) (o : Operands),
    decode pos (.command 0 o) = .ok .reservedOp0 ∧
    decode pos (.command 1 o) = .ok (.csumCompute o.ph o.hb o.pl) ∧
    decode pos (.command 2 o) = .ok (.csumVerify o.ph o.hb o.pl) ∧
    decode pos (.command 3 o) = .ok (.hdrBuild o.f o.pl o.ph) ∧
    decode pos (.command 4 o) = .ok (.hdrParse o.b) ∧
    decode pos (.command 5 o) = .ok (.segToBytes o.f o.pl o.ph) ∧
    decode pos (.command 6 o) = .ok (.segFromBytes o.b) ∧
    decode pos (.command 7 o) = .ok .reservedOp7

/-- Exactly these wire words decode: four bytes, at a multiple of 4 below 72, with byte 8 of the pseudo-header zero (R60, R63,
R64). The positions are the model's choice (log entry 1). -/
def Obligations.WireWordsThatDecode : Prop :=
  ∀ (pos : Nat) (bs : Bytes),
    (∃ i, decode pos (.wire bs) = .ok i) ↔
      bs.length = 4 ∧ pos < 72 ∧ pos % 4 = 0 ∧ (pos = 8 → bs[0]? = some 0)

/-! ### Steps, admission, refusal -/

/-- A step takes the first presented item whole and runs the instruction it decodes to; an item that decodes to none is refused. That
a command is taken whole, in the order presented, is 20_memory.md R52 and R55; the list of presented items taken one a step (log entry
3), decoding by POS (log entry 1) and the refusal of an item that does not decode (log entry 8) are the model's choices. -/
def Obligations.StepRunsTheDecodedInstruction : Prop :=
  ∀ (s : State) (p : Presented) (rest : List Presented), s.presented = p :: rest →
    (∀ i, decode s.pos p = .ok i → step s = exec i { s with presented := rest }) ∧
    (∀ e, decode s.pos p = .error e → step s = .refused (.undecodable e))

/-- With nothing presented the block stays as it is: the model's choice (log entry 3) for the idle condition of
70_reset_and_hazards.md R185. -/
def Obligations.IdleBlockStaysIdle : Prop :=
  ∀ s : State, s.presented = [] → step s = .next s

/-- Every command inside the admitted domain of 30_encoding.md R74 is answered, in every state. The bounds are the spec's
decisions D5 and D7. -/
def Obligations.AdmittedCommandsAreAnswered : Prop :=
  ∀ (ph : PseudoHeader) (hb pl b : Bytes) (f : Fields) (s : State),
    (ph.protocol = 6 → hb.length + pl.length ≤ 65535 →
      (∃ r, Responds (.csumCompute ph hb pl) s r) ∧ (∃ r, Responds (.csumVerify ph hb pl) s r)) ∧
    (ph.protocol = 6 →
      (5 + (f.options.length + 3) / 4 ≤ 15 →
        (f.dataOffsetValid = true → f.dataOffset.toNat = 5 + (f.options.length + 3) / 4) →
        4 * (5 + (f.options.length + 3) / 4) + pl.length ≤ 65535) →
      (∃ r, Responds (.hdrBuild f pl ph) s r) ∧ (∃ r, Responds (.segToBytes f pl ph) s r)) ∧
    (∃ r, Responds (.hdrParse b) s r) ∧ (∃ r, Responds (.segFromBytes b) s r)

/-- Every command outside the admitted domain of R74 is refused, in every state: no response, no status (60_exceptions.md
R180). The refusals are the spec's decisions D5, D7 and D31. -/
def Obligations.CommandsOutsideTheDomainAreRefused : Prop :=
  ∀ (ph : PseudoHeader) (hb pl : Bytes) (f : Fields) (s : State),
    (ph.protocol ≠ 6 ∨ 65535 < hb.length + pl.length →
      Refused (.csumCompute ph hb pl) s ∧ Refused (.csumVerify ph hb pl) s) ∧
    (ph.protocol ≠ 6 ∨
        (5 + (f.options.length + 3) / 4 ≤ 15 ∧
          (f.dataOffsetValid = true → f.dataOffset.toNat = 5 + (f.options.length + 3) / 4) ∧
          65535 < 4 * (5 + (f.options.length + 3) / 4) + pl.length) →
      Refused (.hdrBuild f pl ph) s ∧ Refused (.segToBytes f pl ph) s)

/-- The reserved codes of 30_encoding.md R75: a command with OP 0 or 7 is refused whatever its operands, and no response of the block
has status code 3. The codes are the spec's decisions D2 and D3. That STATUS 3 presented as a step is refused is the model's choice
(log entry 2). -/
def Obligations.ReservedCodesAreRefused : Prop :=
  (∀ (s : State) (o : Operands) (rest : List Presented), s.presented = .command 0 o :: rest →
    step s = .refused (.reservedOp 0)) ∧
  (∀ (s : State) (o : Operands) (rest : List Presented), s.presented = .command 7 o :: rest →
    step s = .refused (.reservedOp 7)) ∧
  (∀ s : State, exec .reservedOp0 s = .refused (.reservedOp 0) ∧ exec .reservedOp7 s = .refused (.reservedOp 7) ∧
    exec (.status 3) s = .refused .reservedStatus) ∧
  (∀ r : Response, r.code ≠ 3)

/-- Every instruction runs in every state exactly when it is well-formed: the admitted domain decides, and no state of the block
does (R74, R75, 10_state.md R10). For the wire words and STATUS it is the model's choice (log entries 1 and 2). -/
def Obligations.AnsweredExactlyWhenWellFormed : Prop :=
  ∀ (i : Instr) (s : State), (∃ t, exec i s = .next t) ↔ i.wf = true

/-! ### The checksum engine -/

/-- 40_checksum.md R93: FOLD repeats the end-around carry until no bit beyond 16 remains; each pass makes the value smaller; two
passes are enough for 32 bits and one is not always. -/
def Obligations.FoldRepeatsTheEndAroundCarry : Prop :=
  (∀ x : Nat, fold x = if 0x10000 ≤ x then fold (x % 0x10000 + x / 0x10000) else x) ∧
  (∀ x : Nat, fold x ≤ 0xFFFF) ∧
  (∀ x : Nat, 0x10000 ≤ x → x % 0x10000 + x / 0x10000 < x) ∧
  (∀ x : Nat, x < 2 ^ 32 → foldPasses 2 x = fold x) ∧
  foldPasses 1 0x1FFFF = 0x10000 ∧ foldPasses 2 0x1FFFF = 0x0001

/-- The closed form of FOLD and what follows from it, the law R94 derives from R93. -/
def Obligations.FoldHasTheClosedForm : Prop :=
  fold 0 = 0 ∧
  (∀ x : Nat, 0 < x → fold x = (x - 1) % 65535 + 1) ∧
  (∀ x : Nat, fold x % 65535 = x % 65535) ∧
  (∀ x : Nat, fold x = 0 ↔ x = 0) ∧
  (∀ x : Nat, fold x = 0xFFFF ↔ 0 < x ∧ 65535 ∣ x) ∧
  (∀ a b : Nat, fold (fold a + fold b) = fold (a + b))

/-- R92: SUM16 is the plain sum of the big-endian words, in any order, and a 32-bit accumulator holds the sum of every stream.
The bound is one the spec derives. -/
def Obligations.SumIsTheSumOfTheWords : Prop :=
  (∀ bs : Bytes, bs.length % 2 = 0 →
    sum16 bs = ((List.range (bs.length / 2)).map fun k => (be16 bs (2 * k)).toNat).sum) ∧
  (∀ ws ws' : List Word16, ws.Perm ws' → sum16 (ws.flatMap put16) = sum16 (ws'.flatMap put16)) ∧
  (∀ (ph : PseudoHeader) (hb pl : Bytes), hb.length + pl.length ≤ 65535 →
    sum16 (stream ph hb pl) ≤ 32774 * 0xFFFF ∧ sum16 (stream ph hb pl) < 2 ^ 32)

/-- R90, R91, 30_encoding.md R65: the checksum input stream, byte by byte. The TCP length is derived from the operands, and the
pad byte is not counted in it. -/
def Obligations.StreamIsPseudoHeaderHeaderPayloadPad : Prop :=
  ∀ (ph : PseudoHeader) (hb pl : Bytes), hb.length + pl.length ≤ 65535 →
    stream ph hb pl =
      [BitVec.ofNat 8 (ph.src.toNat / 2 ^ 24), BitVec.ofNat 8 (ph.src.toNat / 2 ^ 16),
       BitVec.ofNat 8 (ph.src.toNat / 2 ^ 8), BitVec.ofNat 8 ph.src.toNat,
       BitVec.ofNat 8 (ph.dst.toNat / 2 ^ 24), BitVec.ofNat 8 (ph.dst.toNat / 2 ^ 16),
       BitVec.ofNat 8 (ph.dst.toNat / 2 ^ 8), BitVec.ofNat 8 ph.dst.toNat,
       0x00, ph.protocol,
       BitVec.ofNat 8 ((hb.length + pl.length) / 256), BitVec.ofNat 8 (hb.length + pl.length)] ++
      hb ++ pl ++ (if (hb.length + pl.length) % 2 = 1 then [0x00] else []) ∧
    (stream ph hb pl).length % 2 = 0 ∧ 12 ≤ (stream ph hb pl).length ∧ (stream ph hb pl).length ≤ 12 + 65536

/-- R97: CSUM.COMPUTE completes on every admitted command, and its result is the raw checksum with 0x0000 written as 0xFFFF, which
is 65535 less the residue of the sum. Placing the substitution here is the spec's decision D9. -/
def Obligations.CsumComputeResult : Prop :=
  ∀ (ph : PseudoHeader) (hb pl : Bytes) (s : State), ph.protocol = 6 → hb.length + pl.length ≤ 65535 →
    ∃ c : Word16, Responds (.csumCompute ph hb pl) s (csumResponse c) ∧
      c = (if rawCsum ph hb pl = 0 then 0xFFFF else rawCsum ph hb pl) ∧
      c = BitVec.ofNat 16 (65535 - sum16 (stream ph hb pl) % 65535)

/-- R98: CSUM.VERIFY completes on every admitted command, and its verdict is that the raw checksum is 0x0000, equivalently that the
folded sum is 0xFFFF, which is that 65535 divides the sum. A failed verification is the result 0, not an error (R172). -/
def Obligations.CsumVerifyResult : Prop :=
  ∀ (ph : PseudoHeader) (hb pl : Bytes) (s : State), ph.protocol = 6 → hb.length + pl.length ≤ 65535 →
    ∃ v : Bool, Responds (.csumVerify ph hb pl) s (validResponse v) ∧
      (v = true ↔ rawCsum ph hb pl = 0) ∧
      (v = true ↔ fold (sum16 (stream ph hb pl)) = 0xFFFF) ∧
      (v = true ↔ 65535 ∣ sum16 (stream ph hb pl))

/-- The ranges R104 derives: the raw checksum is never 0xFFFF, the result of CSUM.COMPUTE never 0x0000, and the substitution is
taken exactly when 65535 divides the sum. -/
def Obligations.ChecksumRanges : Prop :=
  ∀ (ph : PseudoHeader) (hb pl : Bytes) (c : Word16) (s : State), ph.protocol = 6 →
    Responds (.csumCompute ph hb pl) s (csumResponse c) →
      (rawCsum ph hb pl).toNat ≤ 0xFFFE ∧ 0x0001 ≤ c.toNat ∧
      (rawCsum ph hb pl = 0 ↔ 65535 ∣ sum16 (stream ph hb pl)) ∧ (c = rawCsum ph hb pl ↔ rawCsum ph hb pl ≠ 0)

/-- Checksum validity, the law R102 derives: storing the result of CSUM.COMPUTE, taken over a header whose checksum field is zero,
into that field makes CSUM.VERIFY answer 1. -/
def Obligations.ComputedChecksumsVerify : Prop :=
  ∀ (ph : PseudoHeader) (hb pl : Bytes) (c : Word16) (s t : State),
    ph.protocol = 6 → hb.length + pl.length ≤ 65535 → 18 ≤ hb.length → hb[16]? = some 0 → hb[17]? = some 0 →
    Responds (.csumCompute ph hb pl) s (csumResponse c) →
    Responds (.csumVerify ph (memWrite16 hb 16 c) pl) t (validResponse true)

/-- Checksum sensitivity, the law R103 derives: from a segment that verifies, every flip of one bit of the header or the payload is
detected, and a change of the bytes, lengths unchanged, is answered 1 if it keeps the sum in its class modulo 65535 and 0 if it does
not. -/
def Obligations.SingleBitFlipsAreDetected : Prop :=
  ∀ (ph : PseudoHeader) (hb pl : Bytes) (s : State),
    ph.protocol = 6 → hb.length + pl.length ≤ 65535 → Responds (.csumVerify ph hb pl) s (validResponse true) →
    (∀ (i k : Nat) (t : State), i < hb.length → k < 8 →
      Responds (.csumVerify ph (flipBit hb i k) pl) t (validResponse false)) ∧
    (∀ (i k : Nat) (t : State), i < pl.length → k < 8 →
      Responds (.csumVerify ph hb (flipBit pl i k)) t (validResponse false)) ∧
    (∀ (hb' pl' : Bytes) (t : State), hb'.length = hb.length → pl'.length = pl.length →
      ∃ v : Bool, Responds (.csumVerify ph hb' pl') t (validResponse v) ∧
        (v = true ↔ sum16 (stream ph hb' pl') % 65535 = sum16 (stream ph hb pl) % 65535))

/-- Verifying against recomputing, the law R105 derives: the two agree but for a stored 0x0000 over other words that fold to 0xFFFF,
where CSUM.VERIFY says 1 (the spec's decision D10). VERIFY.RECOMPUTE (30_encoding.md R79) is the recomputation, and is defined exactly
where the header reaches its checksum field and R74 admits the operands. -/
def Obligations.VerifyAgainstRecomputation : Prop :=
  (∀ (ph : PseudoHeader) (hb pl : Bytes) (v : Bool) (c : Word16) (s t : State),
    ph.protocol = 6 → hb.length + pl.length ≤ 65535 → 18 ≤ hb.length →
    Responds (.csumVerify ph hb pl) s (validResponse v) →
    Responds (.csumCompute ph (zeroChecksum hb) pl) t (csumResponse c) →
    (¬ (be16 hb 16 = 0 ∧ fold (sum16 (stream ph (zeroChecksum hb) pl)) = 0xFFFF) → (v = true ↔ c = be16 hb 16)) ∧
    (be16 hb 16 = 0 ∧ fold (sum16 (stream ph (zeroChecksum hb) pl)) = 0xFFFF → v = true ∧ c = 0xFFFF) ∧
    verifyRecompute ph hb pl = some (decide (c = be16 hb 16))) ∧
  (∀ (ph : PseudoHeader) (hb pl : Bytes),
    verifyRecompute ph hb pl ≠ none ↔ ph.protocol = 6 ∧ hb.length + pl.length ≤ 65535 ∧ 18 ≤ hb.length)

/-- Only the concatenation of header and payload matters to the checksum operations, in every outcome (R97 corner c;
70_reset_and_hazards.md R194). -/
def Obligations.OnlyTheConcatenationMatters : Prop :=
  ∀ (ph : PseudoHeader) (hb pl hb' pl' : Bytes) (s : State), hb ++ pl = hb' ++ pl' →
    exec (.csumCompute ph hb pl) s = exec (.csumCompute ph hb' pl') s ∧
    exec (.csumVerify ph hb pl) s = exec (.csumVerify ph hb' pl') s

/-- One's-complement addition, the laws R100 derives: commutative, associative, 0 its identity, 0xFFFF a second zero; the folded sum
is the sum of the words in any order; exchanging words or the two addresses leaves every checksum unchanged. -/
def Obligations.OnesComplementAddition : Prop :=
  (∀ a b : Nat, oneAdd a b = oneAdd b a) ∧
  (∀ a b c : Nat, oneAdd (oneAdd a b) c = oneAdd a (oneAdd b c)) ∧
  (∀ a : Nat, a ≤ 0xFFFF → oneAdd 0 a = a) ∧
  (∀ a : Nat, 0 < a → a ≤ 0xFFFF → oneAdd a 0xFFFF = a) ∧
  oneAdd 0 0xFFFF = 0xFFFF ∧
  (∀ (bs : Bytes) (ws : List Nat), bs.length % 2 = 0 → ws.Perm (words16 bs) →
    ws.foldl oneAdd 0 = fold (sum16 bs)) ∧
  (∀ bs bs' : Bytes, bs.length % 2 = 0 → bs'.length % 2 = 0 → (words16 bs).Perm (words16 bs') →
    cpl16 (fold (sum16 bs)) = cpl16 (fold (sum16 bs'))) ∧
  (∀ (ph : PseudoHeader) (hb pl : Bytes) (s : State),
    exec (.csumCompute { ph with src := ph.dst, dst := ph.src } hb pl) s = exec (.csumCompute ph hb pl) s ∧
    exec (.csumVerify { ph with src := ph.dst, dst := ph.src } hb pl) s = exec (.csumVerify ph hb pl) s)

/-- R101: the reference serial datapath, started and fed the stream byte by byte, ends with the raw checksum; POS counts the bytes and
ACC does not overflow; an accumulator that folds after every addition ends the same. The datapath is the spec's decision D8. -/
def Obligations.SerialDatapathComputesTheRawChecksum : Prop :=
  ∀ (ph : PseudoHeader) (hb pl : Bytes) (s t : State), hb.length + pl.length ≤ 65535 →
    t = s.start.feed (phBytes ph (hb.length + pl.length) ++ hb ++ pl) →
    t.datapathResult = rawCsum ph hb pl ∧ t.pos = 12 + hb.length + pl.length ∧
    t.finish.acc.toNat = sum16 (stream ph hb pl) ∧ t.finish.odd.valid = false ∧
    cpl16 ((words16 (stream ph hb pl)).foldl oneAdd 0) = rawCsum ph hb pl

/-- The wire words of a pseudo-header and a header, presented in stream order to an idle block, are each performed, and leave the
datapath with the raw checksum of that header (R60, R63, R64, R65, R101). Wire words as steps are the model's choice (log entry 1), as
are the list of presented items (log entry 3) and that a pending response stays (log entry 16). -/
def Obligations.WireWordsInOrderComputeTheChecksum : Prop :=
  ∀ (ph : PseudoHeader) (hb : Bytes) (s : State),
    ph.protocol = 6 → hb.length % 4 = 0 → 20 ≤ hb.length → hb.length ≤ 60 →
    s.acc = 0 → s.odd.valid = false → s.pos = 0 → s.presented = wireWords (phBytes ph hb.length ++ hb) →
    ∃ t : State, Host.Core.run core (3 + hb.length / 4) s = .next t ∧
      t.presented = [] ∧ t.rsp = s.rsp ∧ t.pos = 12 + hb.length ∧ t.datapathResult = rawCsum ph hb []

/-- Each wire word completes, and on a word boundary it adds its two 16-bit halves, as its row lays them out, to ACC, leaves its third
byte behind a clear valid bit, counts four bytes in POS and leaves the response and what is presented alone (R60, R61, R63, R64, R101).
Wire words as steps are the model's choice (log entry 1), as is that a pending response stays (log entry 16). -/
def Obligations.WireWordsAddTheirHalves : Prop :=
  ∀ (s : State) (sp dp w k u l : Word16) (q : Word32) (d r : BitVec 4) (f : TcpFlags) (x0 x1 x2 x3 : Byte),
    s.odd.valid = false →
    let after (hi lo : Word16) : State :=
      { s with acc := s.acc + hi.setWidth 32 + lo.setWidth 32,
               odd := { valid := false, byte := lo.extractLsb' 8 8 }, pos := s.pos + 4 }
    exec (.tcphdrW0 sp dp) s = .next (after sp dp) ∧
    exec (.tcphdrW1 q) s = .next (after (q.extractLsb' 16 16) (q.extractLsb' 0 16)) ∧
    exec (.tcphdrW2 q) s = .next (after (q.extractLsb' 16 16) (q.extractLsb' 0 16)) ∧
    exec (.tcphdrW3 d r f w) s =
      .next (after (BitVec.ofNat 16 (4096 * d.toNat + 256 * r.toNat + (128 * f.cwr.toNat + 64 * f.ece.toNat +
        32 * f.urg.toNat + 16 * f.ack.toNat + 8 * f.psh.toNat + 4 * f.rst.toNat + 2 * f.syn.toNat + f.fin.toNat))) w) ∧
    exec (.tcphdrW4 k u) s = .next (after k u) ∧
    exec (.tcphdrOpt x0 x1 x2 x3) s = .next (after (x0 ++ x1) (x2 ++ x3)) ∧
    exec (.pseudoW0 q) s = .next (after (q.extractLsb' 16 16) (q.extractLsb' 0 16)) ∧
    exec (.pseudoW1 q) s = .next (after (q.extractLsb' 16 16) (q.extractLsb' 0 16)) ∧
    exec (.pseudoW2 6 l) s = .next (after 0x0006 l)

/-- In every state, odd phase or even, a well-formed wire word completes as the feeding of its own four encoded bytes; the response
and what is presented are left alone (R101). Wire words as steps are the model's choice (log entry 1), as is that a pending response stays (log
entry 16). -/
def Obligations.WireWordsFeedTheirEncoding : Prop :=
  ∀ (i : Instr) (s : State), i.isWireWord = true → i.wf = true →
    ∃ (bs : Bytes) (t : State), encode i = .wire bs ∧ exec i s = .next t ∧ t = s.feed bs ∧
      t.pos = s.pos + 4 ∧ t.odd.valid = s.odd.valid ∧ t.rsp = s.rsp ∧ t.presented = s.presented

/-! ### The header codec -/

/-- The masks of 41_header_codec.md R110 are pairwise disjoint and together the whole pair. R110 counts twelve constants, ten masks and
two shifts. The numeric values are the spec's decision D12. -/
def Obligations.MasksPartitionThePair : Prop :=
  let masks := [doffMask, rsvMask, cwrMask, eceMask, urgMask, ackMask, pshMask, rstMask, synMask, finMask]
  masks.Pairwise (fun a b => a &&& b = 0) ∧ masks.foldl (fun a b => a ||| b) 0 = 0xFFFF

/-- R111 to R120: each extractor reads exactly its own bits, and each injector writes exactly its own bits and keeps the others. -/
def Obligations.AccessorsReadAndWriteTheirBits : Prop :=
  ∀ (p : Word16) (d : BitVec 4) (b : Bool),
    (getDoff p).toNat = p.toNat / 4096 ∧ (getRsv p).toNat = p.toNat / 256 % 16 ∧
    getCwr p = p.getLsbD 7 ∧ getEce p = p.getLsbD 6 ∧ getUrg p = p.getLsbD 5 ∧ getAck p = p.getLsbD 4 ∧
    getPsh p = p.getLsbD 3 ∧ getRst p = p.getLsbD 2 ∧ getSyn p = p.getLsbD 1 ∧ getFin p = p.getLsbD 0 ∧
    getDoff (setDoff p d) = d ∧ (setDoff p d).toNat % 4096 = p.toNat % 4096 ∧
    (∀ i, i < 16 →
      (clrRsv p).getLsbD i = (if 8 ≤ i ∧ i < 12 then false else p.getLsbD i) ∧
      (setCwr p b).getLsbD i = (if i = 7 then b else p.getLsbD i) ∧
      (setEce p b).getLsbD i = (if i = 6 then b else p.getLsbD i) ∧
      (setUrg p b).getLsbD i = (if i = 5 then b else p.getLsbD i) ∧
      (setAck p b).getLsbD i = (if i = 4 then b else p.getLsbD i) ∧
      (setPsh p b).getLsbD i = (if i = 3 then b else p.getLsbD i) ∧
      (setRst p b).getLsbD i = (if i = 2 then b else p.getLsbD i) ∧
      (setSyn p b).getLsbD i = (if i = 1 then b else p.getLsbD i) ∧
      (setFin p b).getLsbD i = (if i = 0 then b else p.getLsbD i))

/-- R121: PACK is the sum of its fields with the reserved bits zero, and UNPACK takes it apart again. -/
def Obligations.UnpackUndoesPack : Prop :=
  ∀ (d : BitVec 4) (f : TcpFlags),
    (pack d f).toNat = 4096 * d.toNat + (128 * f.cwr.toNat + 64 * f.ece.toNat + 32 * f.urg.toNat + 16 * f.ack.toNat +
      8 * f.psh.toNat + 4 * f.rst.toNat + 2 * f.syn.toNat + f.fin.toNat) ∧
    unpack (pack d f) = (d, 0, f) ∧
    (∀ p : Word16, unpack p = (getDoff p, getRsv p,
      { cwr := getCwr p, ece := getEce p, urg := getUrg p, ack := getAck p,
        psh := getPsh p, rst := getRst p, syn := getSyn p, fin := getFin p }))

/-- R130 to R134, 20_memory.md R42: on every admitted command whose data offset is consistent HDR.BUILD completes with the header laid
out byte by byte, options padded to a multiple of 4 bytes, and the checksum over the header with a zero field and the payload. The pad
byte 0x01 is presumed (log entry 5, the spec's decision D14), as are the flag positions (D12) and the data-offset reading (D13). -/
def Obligations.BuildWritesTheHeaderLayout : Prop :=
  ∀ (f : Fields) (pl : Bytes) (ph : PseudoHeader) (s : State) (d : Nat),
    d = 5 + (f.options.length + 3) / 4 → ph.protocol = 6 → d ≤ 15 →
    (f.dataOffsetValid = true → f.dataOffset.toNat = d) → 4 * d + pl.length ≤ 65535 →
    let layout (c : Word16) : Bytes :=
      [BitVec.ofNat 8 (f.sourcePort.toNat / 256), BitVec.ofNat 8 f.sourcePort.toNat,
       BitVec.ofNat 8 (f.destinationPort.toNat / 256), BitVec.ofNat 8 f.destinationPort.toNat,
       BitVec.ofNat 8 (f.sequenceNumber.toNat / 2 ^ 24), BitVec.ofNat 8 (f.sequenceNumber.toNat / 2 ^ 16),
       BitVec.ofNat 8 (f.sequenceNumber.toNat / 2 ^ 8), BitVec.ofNat 8 f.sequenceNumber.toNat,
       BitVec.ofNat 8 (f.acknowledgmentNumber.toNat / 2 ^ 24), BitVec.ofNat 8 (f.acknowledgmentNumber.toNat / 2 ^ 16),
       BitVec.ofNat 8 (f.acknowledgmentNumber.toNat / 2 ^ 8), BitVec.ofNat 8 f.acknowledgmentNumber.toNat,
       BitVec.ofNat 8 (16 * d),
       BitVec.ofNat 8 (128 * f.flags.cwr.toNat + 64 * f.flags.ece.toNat + 32 * f.flags.urg.toNat +
         16 * f.flags.ack.toNat + 8 * f.flags.psh.toNat + 4 * f.flags.rst.toNat + 2 * f.flags.syn.toNat +
         f.flags.fin.toNat),
       BitVec.ofNat 8 (f.windowSize.toNat / 256), BitVec.ofNat 8 f.windowSize.toNat,
       BitVec.ofNat 8 (c.toNat / 256), BitVec.ofNat 8 c.toNat,
       BitVec.ofNat 8 (f.urgentPointer.toNat / 256), BitVec.ofNat 8 f.urgentPointer.toNat] ++
      f.options ++ List.replicate ((4 - f.options.length % 4) % 4) 0x01
    let c := BitVec.ofNat 16 (65535 - sum16 (stream ph (layout 0) pl) % 65535)
    Responds (.hdrBuild f pl ph) s (outResponse (layout c)) ∧ (layout c).length = 4 * d

/-- R131, 60_exceptions.md R163: HDR.BUILD and SEG.TO_BYTES end with InvalidDataOffset exactly when the derived data offset exceeds 15 or
a supplied one differs from it, whatever the payload length. The reading is the spec's decision D13. -/
def Obligations.BuildChecksTheDataOffset : Prop :=
  ∀ (f : Fields) (pl : Bytes) (ph : PseudoHeader) (s : State) (d : Nat),
    d = 5 + (f.options.length + 3) / 4 → ph.protocol = 6 →
    (15 < d ∨ (f.dataOffsetValid = true ∧ f.dataOffset.toNat ≠ d) ↔
      Responds (.hdrBuild f pl ph) s (.err .invalidDataOffset)) ∧
    (15 < d ∨ (f.dataOffsetValid = true ∧ f.dataOffset.toNat ≠ d) ↔
      Responds (.segToBytes f pl ph) s (.err .invalidDataOffset))

/-- R134: HDR.BUILD's checksum is what CSUM.COMPUTE answers for the whole assembled header with bytes 16 and 17 zero and the payload,
stored big-endian at those two bytes; no other byte changes, and the assembled header depends on the fields alone. -/
def Obligations.BuildStoresTheComputedChecksum : Prop :=
  ∀ (f : Fields) (d : Nat), d = 5 + (f.options.length + 3) / 4 → d ≤ 15 →
    (f.dataOffsetValid = true → f.dataOffset.toNat = d) →
    ∃ assembled : Bytes, assembled.length = 4 * d ∧ assembled[16]? = some 0 ∧ assembled[17]? = some 0 ∧
      ∀ (pl : Bytes) (ph : PseudoHeader) (s : State), ph.protocol = 6 → 4 * d + pl.length ≤ 65535 →
        ∃ (out : Bytes) (c : Word16), Responds (.csumCompute ph assembled pl) s (csumResponse c) ∧
          Responds (.hdrBuild f pl ph) s (outResponse out) ∧ out.length = 4 * d ∧
          out[16]? = some (BitVec.ofNat 8 (c.toNat / 256)) ∧ out[17]? = some (BitVec.ofNat 8 c.toNat) ∧
          ∀ i : Nat, i ≠ 16 → i ≠ 17 → out[i]? = assembled[i]?

/-- R130 corner a: the payload and the pseudo-header reach only bytes 16 and 17 of a built header. -/
def Obligations.PayloadReachesOnlyTheChecksumBytes : Prop :=
  ∀ (f : Fields) (pl pl' : Bytes) (ph ph' : PseudoHeader) (s s' : State) (out out' : Bytes),
    Responds (.hdrBuild f pl ph) s (outResponse out) → Responds (.hdrBuild f pl' ph') s' (outResponse out') →
    out.length = out'.length ∧ ∀ i : Nat, i ≠ 16 → i ≠ 17 → out[i]? = out'[i]?

/-- R161: a buffer of fewer than 20 bytes ends HDR.PARSE and SEG.FROM_BYTES with TooShort, whatever it holds. -/
def Obligations.ShortBuffersAreTooShort : Prop :=
  ∀ (b : Bytes) (s : State),
    (b.length < 20 ↔ Responds (.hdrParse b) s (.err .tooShort)) ∧
    (b.length < 20 ↔ Responds (.segFromBytes b) s (.err .tooShort))

/-- R137, R162: with 20 bytes or more, HDR.PARSE and SEG.FROM_BYTES end with InvalidDataOffset exactly when the declared length exceeds the
buffer or is below 20. -/
def Obligations.BadDeclaredLengthsAreInvalid : Prop :=
  ∀ (b : Bytes) (s : State) (x : Byte) (d : Nat), 20 ≤ b.length → b[12]? = some x → d = x.toNat / 16 →
    (b.length < 4 * d ∨ 4 * d < 20 ↔ Responds (.hdrParse b) s (.err .invalidDataOffset)) ∧
    (b.length < 4 * d ∨ 4 * d < 20 ↔ Responds (.segFromBytes b) s (.err .invalidDataOffset))

/-- R138, R139, 30_encoding.md R67: on every buffer whose declared length is in range HDR.PARSE completes with every field as found at its
position, the reserved bits and the checksum unchecked, and the options as the raw bytes up to the declared length. -/
def Obligations.ParseExtractsEveryField : Prop :=
  ∀ (b : Bytes) (s : State) (x : Nat → Nat) (d : Nat),
    20 ≤ b.length → (∀ i, i < 20 → (b[i]?).map BitVec.toNat = some (x i)) → d = x 12 / 16 → 5 ≤ d → 4 * d ≤ b.length →
    ∃ h : TcpHeader, Responds (.hdrParse b) s (headerResponse h) ∧
      h.sourcePort.toNat = 256 * x 0 + x 1 ∧ h.destinationPort.toNat = 256 * x 2 + x 3 ∧
      h.sequenceNumber.toNat = 2 ^ 24 * x 4 + 2 ^ 16 * x 5 + 2 ^ 8 * x 6 + x 7 ∧
      h.acknowledgmentNumber.toNat = 2 ^ 24 * x 8 + 2 ^ 16 * x 9 + 2 ^ 8 * x 10 + x 11 ∧
      h.dataOffset.toNat = d ∧ h.reserved.toNat = x 12 % 16 ∧
      h.flags = { cwr := (x 13).testBit 7, ece := (x 13).testBit 6, urg := (x 13).testBit 5, ack := (x 13).testBit 4,
                  psh := (x 13).testBit 3, rst := (x 13).testBit 2, syn := (x 13).testBit 1, fin := (x 13).testBit 0 } ∧
      h.windowSize.toNat = 256 * x 14 + x 15 ∧ h.checksum.toNat = 256 * x 16 + x 17 ∧
      h.urgentPointer.toNat = 256 * x 18 + x 19 ∧
      h.options.length = 4 * d - 20 ∧ ∀ i, i < 4 * d - 20 → h.options[i]? = b[20 + i]?

/-- R135 corner a: what follows the declared header does not reach the result of HDR.PARSE. -/
def Obligations.ParseIgnoresWhatFollows : Prop :=
  ∀ (b tail : Bytes) (h : TcpHeader) (s t : State),
    Responds (.hdrParse b) s (headerResponse h) → Responds (.hdrParse (b ++ tail)) t (headerResponse h)

/-- 60_exceptions.md R172: a checksum that does not verify is no error. CSUM.VERIFY answers OK with VALID 0, and whatever stands in bytes
16 and 17 of a buffer, HDR.PARSE and SEG.FROM_BYTES end as they would with any other checksum there, but for the checksum they expose. -/
def Obligations.WrongChecksumsAreNoError : Prop :=
  (∀ (ph : PseudoHeader) (hb pl : Bytes) (s : State), ph.protocol = 6 → hb.length + pl.length ≤ 65535 →
    rawCsum ph hb pl ≠ 0 → Responds (.csumVerify ph hb pl) s (validResponse false)) ∧
  (∀ (b : Bytes) (c : Word16) (s : State),
    (∀ e, Responds (.hdrParse b) s (.err e) ↔ Responds (.hdrParse (memWrite16 b 16 c)) s (.err e)) ∧
    (∀ e, Responds (.segFromBytes b) s (.err e) ↔ Responds (.segFromBytes (memWrite16 b 16 c)) s (.err e)) ∧
    (∀ h, Responds (.hdrParse b) s (headerResponse h) →
      Responds (.hdrParse (memWrite16 b 16 c)) s (headerResponse { h with checksum := c })) ∧
    (∀ h pl n, Responds (.segFromBytes b) s (segmentResponse h pl n) →
      Responds (.segFromBytes (memWrite16 b 16 c)) s (segmentResponse { h with checksum := c } pl n)))

/-- The round trip R141 derives: parsing a header built from a valid TcpHeader, its data offset supplied or not, gives every field back,
with the reserved bits zero and the checksum that of the header with a zero field. -/
def Obligations.BuildThenParseGivesTheHeaderBack : Prop :=
  ∀ (h : TcpHeader) (supply : Bool) (pl : Bytes) (ph : PseudoHeader) (s t : State),
    h.valid = true → ph.protocol = 6 → 4 * h.dataOffset.toNat + pl.length ≤ 65535 →
    ∃ (out : Bytes) (c : Word16), Responds (.hdrBuild (h.toFields supply) pl ph) s (outResponse out) ∧
      Responds (.csumCompute ph (zeroChecksum out) pl) s (csumResponse c) ∧
      Responds (.hdrParse out) t (headerResponse { h with checksum := c })

/-- The law R142 derives: a parsed header with zero reserved bits, built again, is the header part of the buffer but for bytes 16 and 17, and
there too exactly when the stored checksum is the computed one. -/
def Obligations.ParseThenBuildGivesTheBytesBack : Prop :=
  ∀ (b : Bytes) (h : TcpHeader) (supply : Bool) (pl : Bytes) (ph : PseudoHeader) (s t : State),
    Responds (.hdrParse b) s (headerResponse h) → h.reserved = 0 → ph.protocol = 6 →
    4 * h.dataOffset.toNat + pl.length ≤ 65535 →
    ∃ (out : Bytes) (c : Word16), Responds (.hdrBuild (h.toFields supply) pl ph) t (outResponse out) ∧
      Responds (.csumCompute ph (zeroChecksum (b.take (4 * h.dataOffset.toNat))) pl) t (csumResponse c) ∧
      out = memWrite16 (b.take (4 * h.dataOffset.toNat)) 16 c ∧
      (out = b.take (4 * h.dataOffset.toNat) ↔ be16 b 16 = c)

/-- The minimum-length boundary of R144: twenty bytes, zero but for the data-offset nibble 5, give a header of zeros, in every state;
twenty zero bytes and nineteen zero bytes fail (R137, R136). -/
def Obligations.MinimumLengthBoundary : Prop :=
  ∀ s : State,
    Responds (.hdrParse (List.replicate 12 0x00 ++ [0x50] ++ List.replicate 7 0x00)) s
      (headerResponse
        { sourcePort := 0, destinationPort := 0, sequenceNumber := 0, acknowledgmentNumber := 0, dataOffset := 5,
          reserved := 0,
          flags := { cwr := false, ece := false, urg := false, ack := false,
                     psh := false, rst := false, syn := false, fin := false },
          windowSize := 0, checksum := 0, urgentPointer := 0, options := [] }) ∧
    Responds (.hdrParse (List.replicate 20 0x00)) s (.err .invalidDataOffset) ∧
    Responds (.hdrParse (List.replicate 19 0x00)) s (.err .tooShort)

/-- The data-offset boundary of R145: a declared offset of 4 fails with InvalidDataOffset in every buffer of 20 bytes or more. -/
def Obligations.DataOffsetFourIsInvalid : Prop :=
  ∀ (b : Bytes) (s : State) (x : Byte), 20 ≤ b.length → b[12]? = some x → x.toNat / 16 = 4 →
    Responds (.hdrParse b) s (.err .invalidDataOffset) ∧ Responds (.segFromBytes b) s (.err .invalidDataOffset)

/-! ### The segment operations -/

/-- 42_segment.md R151: on every admitted command whose data offset is consistent SEG.TO_BYTES completes with the bytes HDR.BUILD gives,
then the payload, and the sum of their lengths; an error of HDR.BUILD is its own, and it has no other. -/
def Obligations.ToBytesIsTheHeaderThenThePayload : Prop :=
  (∀ (f : Fields) (pl : Bytes) (ph : PseudoHeader) (s : State) (d : Nat),
    d = 5 + (f.options.length + 3) / 4 → ph.protocol = 6 → d ≤ 15 →
    (f.dataOffsetValid = true → f.dataOffset.toNat = d) → 4 * d + pl.length ≤ 65535 →
    ∃ out : Bytes, out.length = 4 * d ∧ Responds (.hdrBuild f pl ph) s (outResponse out) ∧
      Responds (.segToBytes f pl ph) s (segmentBytesResponse (out ++ pl) (out.length + pl.length))) ∧
  (∀ (f : Fields) (pl : Bytes) (ph : PseudoHeader) (s : State) (e : ParseError),
    Responds (.hdrBuild f pl ph) s (.err e) ↔ Responds (.segToBytes f pl ph) s (.err e))

/-- 42_segment.md R152: on every buffer whose declared length is in range SEG.FROM_BYTES completes with the header HDR.PARSE gives, the
rest of the buffer, and its length; an error of HDR.PARSE is its own, and it has no other. -/
def Obligations.FromBytesIsTheHeaderAndTheRest : Prop :=
  (∀ (b : Bytes) (s : State) (x : Byte) (d : Nat), 20 ≤ b.length → b[12]? = some x → d = x.toNat / 16 → 5 ≤ d →
    4 * d ≤ b.length →
    ∃ (h : TcpHeader) (pl : Bytes), h.dataOffset.toNat = d ∧ Responds (.hdrParse b) s (headerResponse h) ∧
      Responds (.segFromBytes b) s (segmentResponse h pl b.length) ∧ b = b.take (4 * d) ++ pl ∧
      pl.length = b.length - 4 * d) ∧
  (∀ (b : Bytes) (s : State) (e : ParseError),
    Responds (.hdrParse b) s (.err e) ↔ Responds (.segFromBytes b) s (.err e))

/-- R153, 10_state.md R23: the total length both segment operations report is the header length plus the payload length, the
`Segment.total_length` of 30_encoding.md R79, and SEG.FROM_BYTES reports every length of 20 or more. The result field is the spec's
decision D32; that no BUF_MAX bounds it is the model's choice (log entry 4). -/
def Obligations.TotalLengthIsHeaderPlusPayload : Prop :=
  (∀ (b pl : Bytes) (h : TcpHeader) (n : Nat) (s : State),
    Responds (.segFromBytes b) s (segmentResponse h pl n) →
    n = 4 * h.dataOffset.toNat + pl.length ∧ n = ({ header := h, payload := pl } : Segment).totalLength ∧ n = b.length) ∧
  (∀ (n : Nat) (s : State), 20 ≤ n →
    ∃ (b pl : Bytes) (h : TcpHeader), Responds (.segFromBytes b) s (segmentResponse h pl n)) ∧
  (∀ (f : Fields) (pl : Bytes) (ph : PseudoHeader) (out : Bytes) (n : Nat) (s : State),
    Responds (.segToBytes f pl ph) s (segmentBytesResponse out n) →
    ∃ x : Byte, out[12]? = some x ∧ n = 4 * (x.toNat / 16) + pl.length ∧ n = out.length)

/-- The segment round trip R154 derives: SEG.FROM_BYTES takes apart what SEG.TO_BYTES wrote, every field and every payload byte, and
CSUM.VERIFY answers 1 for the two parts. -/
def Obligations.SegmentRoundTrip : Prop :=
  ∀ (h : TcpHeader) (supply : Bool) (pl : Bytes) (ph : PseudoHeader) (s t u : State),
    h.valid = true → ph.protocol = 6 → 4 * h.dataOffset.toNat + pl.length ≤ 65535 →
    ∃ (out : Bytes) (c : Word16),
      Responds (.segToBytes (h.toFields supply) pl ph) s
        (segmentBytesResponse out (4 * h.dataOffset.toNat + pl.length)) ∧
      Responds (.segFromBytes out) t
        (segmentResponse { h with checksum := c } pl (4 * h.dataOffset.toNat + pl.length)) ∧
      Responds (.csumCompute ph (zeroChecksum (out.take (4 * h.dataOffset.toNat))) pl) u (csumResponse c) ∧
      Responds (.csumVerify ph (out.take (4 * h.dataOffset.toNat)) (out.drop (4 * h.dataOffset.toNat))) u
        (validResponse true)

/-! ### Errors, purity, frames, the invariant -/

/-- The table R166 derives: the statuses each operation can end in, and that each of them occurs. -/
def Obligations.StatusesOfEachOperation : Prop :=
  (∀ (ph : PseudoHeader) (hb pl : Bytes) (f : Fields) (s : State) (e : ParseError),
    ¬ Responds (.csumCompute ph hb pl) s (.err e) ∧ ¬ Responds (.csumVerify ph hb pl) s (.err e) ∧
    ¬ Responds (.hdrBuild f pl ph) s (.err .tooShort) ∧ ¬ Responds (.segToBytes f pl ph) s (.err .tooShort)) ∧
  (∀ s : State,
    (∃ ph hb pl r, Responds (.csumCompute ph hb pl) s (.ok r)) ∧ (∃ ph hb pl r, Responds (.csumVerify ph hb pl) s (.ok r)) ∧
    (∃ f pl ph r, Responds (.hdrBuild f pl ph) s (.ok r)) ∧ (∃ f pl ph r, Responds (.segToBytes f pl ph) s (.ok r)) ∧
    (∃ f pl ph, Responds (.hdrBuild f pl ph) s (.err .invalidDataOffset)) ∧
    (∃ f pl ph, Responds (.segToBytes f pl ph) s (.err .invalidDataOffset)) ∧
    (∃ b r, Responds (.hdrParse b) s (.ok r)) ∧ (∃ b r, Responds (.segFromBytes b) s (.ok r)) ∧
    (∀ e, ∃ b, Responds (.hdrParse b) s (.err e)) ∧ (∀ e, ∃ b, Responds (.segFromBytes b) s (.err e)))

/-- 10_state.md R10: no state survives an operation. Two commands with equal operands give equal responses, or are both refused alike,
whatever state the block is in. -/
def Obligations.ResponsesDependOnTheOperandsAlone : Prop :=
  ∀ (i : Instr) (s s' : State), i.isOperation = true →
    (∃ r t t', exec i s = .next t ∧ exec i s' = .next t' ∧ t.rsp = some r ∧ t'.rsp = some r) ∨
    (∃ r, exec i s = .refused r ∧ exec i s' = .refused r)

/-- 60_exceptions.md R164, R170: an error is the whole response and leaves the block as a success does, so the next command is performed
exactly as if the failed one had never been presented. -/
def Obligations.ErrorsLeaveNothingBehind : Prop :=
  ∀ (i j : Instr) (e : ParseError) (s t : State), i.isOperation = true → j.isOperation = true →
    exec i s = .next t → t.rsp = some (.err e) →
    t.acc = 0 ∧ t.odd.valid = false ∧ t.pos = 0 ∧ t.presented = s.presented ∧
    ∀ r, Responds j t r ↔ Responds j s r

/-- The frame of the six operations and of STATUS: what the host presented is left alone (20_memory.md R56), the response is the new one,
and the datapath is cleared but for the byte behind ODD's clear valid bit (10_state.md R29). The clearing and that byte are the model's
choice (log entry 6), as is STATUS as a step that gives a response (log entry 2). -/
def Obligations.OperationsLeaveTheBlockIdle : Prop :=
  ∀ (i : Instr) (s t : State), i.isWireWord = false → exec i s = .next t →
    t.presented = s.presented ∧ t.rsp ≠ none ∧ t.acc = 0 ∧ t.odd = { valid := false, byte := s.odd.byte } ∧ t.pos = 0

/-- 30_encoding.md R72, R73: each status code that is not reserved completes with its own response, which carries no result field, and
clears the datapath. STATUS as a step is the model's choice (log entry 2), as are the clearing and the byte left in ODD (log entry 6). -/
def Obligations.StatusRowGivesItsResponse : Prop :=
  ∀ s : State,
    let idle (r : Response) : State :=
      { s with rsp := some r, acc := 0, odd := { valid := false, byte := s.odd.byte }, pos := 0 }
    exec (.status 0) s = .next (idle (.ok Results.empty)) ∧
    exec (.status 1) s = .next (idle (.err .tooShort)) ∧
    exec (.status 2) s = .next (idle (.err .invalidDataOffset)) ∧
    Response.code (.ok Results.empty) = 0 ∧ Response.code (.err .tooShort) = 1 ∧
    Response.code (.err .invalidDataOffset) = 2

/-- The invariant every step keeps, from every state that meets it: the datapath does not overflow and its phase follows POS (R92, R101),
and a pending OK response carries either the fields of one row of R70 with the values the rules allow, or no field at all, the response
of the STATUS step. The values: a checksum that is not zero (R104), a built header with zero reserved bits and its declared length (R16,
R76, R130), a parsed header in range (R15, R21), a total length that is the sum of its parts (R23, R153). POS at most 72 and wire words
as steps rest on log entry 1, the response without fields on log entry 2, and the clearing and the staying of a response on log entries
6 and 16: they are the model's choices. -/
def Obligations.StepKeepsTheInvariant : Prop :=
  ∀ s t : State, s.inv = true → step s = .next t → t.inv = true

/-- Reset meets the invariant. -/
def Obligations.ResetMeetsTheInvariant : Prop := State.reset.inv = true

/-- The values after reset that 10_state.md R33 gives, from reset and from the reset input in every state (70_reset_and_hazards.md R185,
the spec's decision D20): nothing in progress, no response pending, ACC 0, ODD not valid, POS 0. -/
def Obligations.ResetLeavesTheBlockIdle : Prop :=
  ∀ s : State, s.resetInput = State.reset ∧ s.resetInput.rsp = none ∧ s.resetInput.presented = [] ∧
    s.resetInput.acc = 0 ∧ s.resetInput.odd.valid = false ∧ s.resetInput.pos = 0

/-- A host that presents only admitted commands has every one of them answered, one a step, in order (R52, R74,
70_reset_and_hazards.md R197): after n steps the response pending is the one exec gives the n-th command. The list of presented
commands taken one a step is the model's choice (log entry 3). -/
def Obligations.AdmittedCommandStreamsAreAllAnswered : Prop :=
  ∀ (n : Nat) (s : State), (∀ p ∈ s.presented, p.admitted = true) → n ≤ s.presented.length →
    ∃ t : State, Host.Core.run core n s = .next t ∧ t.presented = s.presented.drop n ∧
      ∀ (op : BitVec 3) (o : Operands), 0 < n → s.presented[n - 1]? = some (.command op o) →
        ∃ r : Response, Responds (decodeCommand op o) s r ∧ t.rsp = some r

/-- The sentence of 70_reset_and_hazards.md R191 that any change of the pseudo-header but the exchange of its addresses changes the verdict.
It is expected to FAIL: two addresses changed by opposite amounts keep the sum. -/
def Obligations.OnlyTheExchangeOfAddressesKeepsTheVerdict : Prop :=
  ∀ (ph ph' : PseudoHeader) (hb pl : Bytes) (s : State), ph'.protocol = 6 →
    Responds (.csumVerify ph hb pl) s (validResponse true) → Responds (.csumVerify ph' hb pl) s (validResponse true) →
    ph' = ph ∨ (ph'.src = ph.dst ∧ ph'.dst = ph.src)
end

