-- ==== Sys2Proof/Laws/Bytes.lean ====
section
/-! SUPPORT. Laws of byte sequences: lengths, reading back what was put, and the store into a result sequence. -/

namespace Sys2Proof.Machine

@[simp] theorem put16_length (v : Word16) : (put16 v).length = 2 := rfl
@[simp] theorem put32_length (v : Word32) : (put32 v).length = 4 := rfl

@[simp] theorem byteAt_cons_zero (b : Byte) (bs : Bytes) : byteAt (b :: bs) 0 = b := rfl
@[simp] theorem byteAt_cons_succ (b : Byte) (bs : Bytes) (i : Nat) : byteAt (b :: bs) (i + 1) = byteAt bs i := by
  simp [byteAt]

/-- A 16-bit value is its two bytes, high byte first. -/
theorem halves_append (v : Word16) : (v.extractLsb' 8 8 ++ v.extractLsb' 0 8 : BitVec (8 + 8)) = v := by
  apply BitVec.eq_of_getLsbD_eq
  intro i hi
  simp only [BitVec.getLsbD_append, BitVec.getLsbD_extractLsb']
  by_cases h : i < 8
  · simp [h]
  · have h2 : i - 8 < 8 := by omega
    have h3 : 8 + (i - 8) = i := by omega
    simp [h, h2, h3]

theorem be16_of_put16 (v : Word16) (bs : Bytes) : be16 (put16 v ++ bs) 0 = v := halves_append v

theorem be32_of_put32 (v : Word32) : be32 (put32 v) 0 = v := by
  apply BitVec.eq_of_getLsbD_eq
  intro i hi
  simp only [be32, be16, put32, byteAt_cons_zero, byteAt_cons_succ, BitVec.getLsbD_append, BitVec.getLsbD_extractLsb']
  by_cases h1 : i < 16
  · by_cases h0 : i < 8
    · simp [h0, h1]
    · simp [h0, h1, show i - 8 < 8 by omega, show 8 + (i - 8) = i by omega]
  · by_cases h2 : i < 24
    · simp [h1, show i - 16 < 8 by omega, show 16 + (i - 16) = i by omega]
    · simp [h1, show ¬ i - 16 < 8 by omega, show i - 16 - 8 < 8 by omega, show 24 + (i - 16 - 8) = i by omega]

/-- Two bytes assembled and split again. -/
theorem put16_of_append (a b : Byte) : put16 (a ++ b) = [a, b] := by
  have ha : BitVec.extractLsb' 8 8 (a ++ b) = a := by
    apply BitVec.eq_of_getLsbD_eq
    intro i hi
    simp only [BitVec.getLsbD_extractLsb']
    rw [BitVec.getLsbD_append, if_neg (by omega), show 8 + i - 8 = i by omega]
    simp [hi]
  have hb : BitVec.extractLsb' 0 8 (a ++ b) = b := by
    apply BitVec.eq_of_getLsbD_eq
    intro i hi
    simp only [BitVec.getLsbD_extractLsb']
    rw [BitVec.getLsbD_append, if_pos (by omega)]
    simp [hi]
  show [BitVec.extractLsb' 8 8 (a ++ b), BitVec.extractLsb' 0 8 (a ++ b)] = [a, b]
  rw [ha, hb]

/-- One byte of an upper half. -/
theorem extract_append_high (v w : Word16) (k : Nat) (hk : k ≤ 8) :
    BitVec.extractLsb' (16 + k) 8 (v ++ w) = v.extractLsb' k 8 := by
  apply BitVec.eq_of_getLsbD_eq
  intro i hi
  simp only [BitVec.getLsbD_extractLsb']
  rw [BitVec.getLsbD_append, if_neg (by omega), show 16 + k + i - 16 = k + i by omega]

/-- One byte of a lower half. -/
theorem extract_append_low (v w : Word16) (k : Nat) (hk : k ≤ 8) :
    BitVec.extractLsb' k 8 (v ++ w) = w.extractLsb' k 8 := by
  apply BitVec.eq_of_getLsbD_eq
  intro i hi
  simp only [BitVec.getLsbD_extractLsb']
  rw [BitVec.getLsbD_append, if_pos (by omega)]

/-- A 32-bit value put is its two halves put. -/
theorem put32_of_append (v w : Word16) : put32 (v ++ w) = put16 v ++ put16 w := by
  show [BitVec.extractLsb' (16 + 8) 8 (v ++ w), BitVec.extractLsb' (16 + 0) 8 (v ++ w),
    BitVec.extractLsb' 8 8 (v ++ w), BitVec.extractLsb' 0 8 (v ++ w)] = put16 v ++ put16 w
  rw [extract_append_high _ _ _ (by omega), extract_append_high _ _ _ (by omega),
    extract_append_low _ _ _ (by omega), extract_append_low _ _ _ (by omega)]
  rfl

/-- The value of two bytes read big-endian. -/
theorem append_toNat (a b : Byte) : (a ++ b : Word16).toNat = a.toNat * 256 + b.toNat := by
  have h := BitVec.toNat_append a b
  have hb : b.toNat < 2 ^ 8 := b.isLt
  rw [h, ← Nat.shiftLeft_add_eq_or_of_lt hb, Nat.shiftLeft_eq]

theorem be16_toNat (bs : Bytes) (i : Nat) : (be16 bs i).toNat = (byteAt bs i).toNat * 256 + (byteAt bs (i + 1)).toNat :=
  append_toNat _ _

@[simp] theorem memWrite16_length (bs : Bytes) (off : Nat) (v : Word16) : (memWrite16 bs off v).length = bs.length := by
  simp [memWrite16]

/-- A store leaves every byte outside its two alone. -/
theorem byteAt_memWrite16_ne (bs : Bytes) (off i : Nat) (v : Word16) (h : i ≠ off) (h' : i ≠ off + 1) :
    byteAt (memWrite16 bs off v) i = byteAt bs i := by
  simp only [byteAt, memWrite16, List.getD_eq_getElem?_getD]
  rw [List.getElem?_set_ne (by omega), List.getElem?_set_ne (by omega)]

/-- Reading a store back gives what was stored. -/
theorem be16_memWrite16 (bs : Bytes) (off : Nat) (v : Word16) (h : off + 1 < bs.length) :
    be16 (memWrite16 bs off v) off = v := by
  have h1 : byteAt (memWrite16 bs off v) off = v.extractLsb' 8 8 := by
    simp only [byteAt, memWrite16, List.getD_eq_getElem?_getD]
    rw [List.getElem?_set_ne (by omega), List.getElem?_set_self (by omega)]
    rfl
  have h2 : byteAt (memWrite16 bs off v) (off + 1) = v.extractLsb' 0 8 := by
    simp only [byteAt, memWrite16, List.getD_eq_getElem?_getD]
    rw [List.getElem?_set_self (by simpa using h)]
    rfl
  rw [be16, h1, h2]
  exact halves_append v

theorem byteAt_append_left (xs ys : Bytes) (i : Nat) (h : i < xs.length) : byteAt (xs ++ ys) i = byteAt xs i := by
  simp [byteAt, List.getElem?_append_left h]

theorem byteAt_append_right (xs ys : Bytes) (i : Nat) (h : xs.length ≤ i) :
    byteAt (xs ++ ys) i = byteAt ys (i - xs.length) := by
  simp [byteAt, List.getElem?_append_right h]

end Sys2Proof.Machine
end

