-- ==== Sys2Proof/Laws/Checksum.lean ====
section
/-! SUPPORT. Laws of the checksum arithmetic: one pass of FOLD, the sum over a concatenation, the stream's length. -/

namespace Sys2Proof.Machine

/-- One pass of FOLD makes a value of more than 16 bits smaller. -/
theorem pass_lt (x : Nat) (h : 0x10000 ≤ x) : x % 0x10000 + x / 0x10000 < x := by omega

/-- One pass of FOLD keeps the residue modulo 65535. -/
theorem pass_mod (x : Nat) : (x % 0x10000 + x / 0x10000) % 65535 = x % 65535 := by omega

/-- One pass of FOLD never turns a nonzero value into zero. -/
theorem pass_pos (x : Nat) (h : 0 < x) : 0 < x % 0x10000 + x / 0x10000 := by omega

theorem foldPasses_small (n x : Nat) (h : x < 0x10000) : foldPasses n x = x := by
  cases n with
  | zero => rfl
  | succ n => simp [foldPasses, Nat.not_le.mpr h]

theorem foldPasses_large (n x : Nat) (h : 0x10000 ≤ x) :
    foldPasses (n + 1) x = foldPasses n (x % 0x10000 + x / 0x10000) := by
  simp [foldPasses, h]

/-- Passes beyond the value itself change nothing. -/
theorem foldPasses_enough (n m x : Nat) (hn : x ≤ n) (hm : x ≤ m) : foldPasses n x = foldPasses m x := by
  induction n generalizing m x with
  | zero =>
    have hx : x = 0 := by omega
    subst hx
    rw [foldPasses_small 0 0 (by omega), foldPasses_small m 0 (by omega)]
  | succ n ih =>
    by_cases h : 0x10000 ≤ x
    · obtain ⟨m, rfl⟩ : ∃ k, m = k + 1 := ⟨m - 1, by omega⟩
      have := pass_lt x h
      rw [foldPasses_large n x h, foldPasses_large m x h]
      exact ih m _ (by omega) (by omega)
    · rw [foldPasses_small _ x (by omega), foldPasses_small _ x (by omega)]

theorem sum16_cons_cons (a b : Byte) (rest : Bytes) :
    sum16 (a :: b :: rest) = a.toNat * 256 + b.toNat + sum16 rest := by
  simp [sum16, append_toNat]

/-- The sum over a concatenation, when the first part ends on a word boundary. -/
theorem sum16_append (xs ys : Bytes) (h : xs.length % 2 = 0) : sum16 (xs ++ ys) = sum16 xs + sum16 ys := by
  induction xs using sum16.induct with
  | case1 a b rest ih =>
    have h' : rest.length % 2 = 0 := by simp only [List.length_cons] at h; omega
    simp only [List.cons_append, sum16_cons_cons, ih h']
    omega
  | case2 xs hne =>
    match xs with
    | [] => simp [sum16]
    | [_] => simp at h
    | a :: b :: rest => exact absurd rfl (hne a b rest)

@[simp] theorem phBytes_length (ph : PseudoHeader) (n : Nat) : (phBytes ph n).length = 12 := rfl

/-- The stream is the twelve pseudo-header bytes, the header, the payload and at most one pad byte. -/
theorem stream_length (ph : PseudoHeader) (hb pl : Bytes) :
    (stream ph hb pl).length = 12 + (hb.length + pl.length) + (hb.length + pl.length) % 2 := by
  simp only [stream]
  split
  · rename_i h
    simp only [List.length_append, phBytes_length, List.length_cons, List.length_nil] at h ⊢
    omega
  · rename_i h
    simp only [List.length_append, phBytes_length] at h ⊢
    omega

end Sys2Proof.Machine
end

