-- ==== Sys2Proof/Laws/Flags.lean ====
section
/-! SUPPORT. Laws of the bit-field accessors: each extractor and injector bit by bit. -/

namespace Sys2Proof.Machine

/-- An extractor of a one-bit mask reads that bit. -/
theorem getFlag_twoPow (p : Word16) (k : Nat) (hk : k < 16) : getFlag (BitVec.twoPow 16 k) p = p.getLsbD k := by
  rw [Bool.eq_iff_iff]
  simp only [getFlag, bne_iff_ne, ne_eq]
  constructor
  · intro h
    by_contra hf
    apply h
    apply BitVec.eq_of_getLsbD_eq
    intro i hi
    simp only [BitVec.getLsbD_and, BitVec.getLsbD_twoPow]
    by_cases hik : i = k
    · subst hik; simp [hf]
    · simp; omega
  · intro h hz
    have hbit : (p &&& BitVec.twoPow 16 k).getLsbD k = true := by
      rw [BitVec.getLsbD_and, BitVec.getLsbD_twoPow, h]
      simp [hk]
    rw [hz] at hbit
    simp at hbit

/-- An injector of a one-bit mask writes that bit and keeps the others. -/
theorem setFlag_twoPow (p : Word16) (b : Bool) (k i : Nat) (hi : i < 16) :
    (setFlag (BitVec.twoPow 16 k) p b).getLsbD i = if i = k then b else p.getLsbD i := by
  unfold setFlag
  by_cases hik : i = k
  · subst hik; cases b <;> simp [hi]
  · cases b <;> simp [hi, hik]

theorem masks_are_single_bits :
    cwrMask = BitVec.twoPow 16 7 ∧ eceMask = BitVec.twoPow 16 6 ∧ urgMask = BitVec.twoPow 16 5 ∧
    ackMask = BitVec.twoPow 16 4 ∧ pshMask = BitVec.twoPow 16 3 ∧ rstMask = BitVec.twoPow 16 2 ∧
    synMask = BitVec.twoPow 16 1 ∧ finMask = BitVec.twoPow 16 0 := by decide

theorem flagBit_getLsbD (k i : Nat) (b : Bool) (hk : k < 16) :
    (flagBit (BitVec.twoPow 16 k) b).getLsbD i = (decide (i = k) && b) := by
  unfold flagBit
  cases b
  · simp
  · simp only [if_true, BitVec.getLsbD_twoPow, Bool.and_true]
    by_cases h : i = k
    · subst h; simp [hk]
    · have h' : ¬ k = i := fun e => h e.symm
      rw [decide_eq_false h, decide_eq_false h', Bool.and_false]

theorem flagBits_getLsbD (f : TcpFlags) (i : Nat) :
    (flagBits f).getLsbD i =
      (decide (i = 7) && f.cwr || decide (i = 6) && f.ece || decide (i = 5) && f.urg || decide (i = 4) && f.ack ||
       decide (i = 3) && f.psh || decide (i = 2) && f.rst || decide (i = 1) && f.syn || decide (i = 0) && f.fin) := by
  obtain ⟨h7, h6, h5, h4, h3, h2, h1, h0⟩ := masks_are_single_bits
  simp only [flagBits, BitVec.getLsbD_or, h7, h6, h5, h4, h3, h2, h1, h0]
  rw [flagBit_getLsbD _ _ _ (by omega), flagBit_getLsbD _ _ _ (by omega), flagBit_getLsbD _ _ _ (by omega),
    flagBit_getLsbD _ _ _ (by omega), flagBit_getLsbD _ _ _ (by omega), flagBit_getLsbD _ _ _ (by omega),
    flagBit_getLsbD _ _ _ (by omega), flagBit_getLsbD _ _ _ (by omega)]

theorem flagBits_high (f : TcpFlags) (i : Nat) (h : 8 ≤ i) : (flagBits f).getLsbD i = false := by
  rw [flagBits_getLsbD]
  simp [show i ≠ 7 by omega, show i ≠ 6 by omega, show i ≠ 5 by omega, show i ≠ 4 by omega, show i ≠ 3 by omega,
    show i ≠ 2 by omega, show i ≠ 1 by omega, show i ≠ 0 by omega]

theorem pairWithReserved_getLsbD (d r : BitVec 4) (f : TcpFlags) (i : Nat) (hi : i < 16) :
    (pairWithReserved d r f).getLsbD i =
      if i < 8 then (flagBits f).getLsbD i else if i < 12 then r.getLsbD (i - 8) else d.getLsbD (i - 12) := by
  simp only [pairWithReserved, pack, BitVec.getLsbD_or, BitVec.getLsbD_shiftLeft, BitVec.getLsbD_setWidth]
  by_cases h8 : i < 8
  · simp [h8, show i < 12 by omega]
  · by_cases h12 : i < 12
    · rw [flagBits_high f i (by omega)]
      simp [h8, h12, hi, show i - 8 < 16 by omega]
    · simp only [h8, h12, hi, flagBits_high f i (by omega), decide_true, decide_false, Bool.not_false, Bool.true_and,
        Bool.or_false, if_false]
      have hr : r.getLsbD (i - 8) = false := BitVec.getLsbD_of_ge r (i - 8) (by omega)
      simp [hr, show i - 12 < 16 by omega]

theorem pack_eq (d : BitVec 4) (f : TcpFlags) : pack d f = pairWithReserved d 0 f := by
  simp [pairWithReserved]

theorem getDoff_getLsbD (p : Word16) (i : Nat) (hi : i < 4) : (getDoff p).getLsbD i = p.getLsbD (12 + i) := by
  have : i = 0 ∨ i = 1 ∨ i = 2 ∨ i = 3 := by omega
  rcases this with rfl | rfl | rfl | rfl <;> simp [getDoff, doffMask]

theorem getRsv_getLsbD (p : Word16) (i : Nat) (hi : i < 4) : (getRsv p).getLsbD i = p.getLsbD (8 + i) := by
  have : i = 0 ∨ i = 1 ∨ i = 2 ∨ i = 3 := by omega
  rcases this with rfl | rfl | rfl | rfl <;> simp [getRsv, rsvMask]

theorem getFlags_eq (p : Word16) :
    getFlags p = { cwr := p.getLsbD 7, ece := p.getLsbD 6, urg := p.getLsbD 5, ack := p.getLsbD 4,
                   psh := p.getLsbD 3, rst := p.getLsbD 2, syn := p.getLsbD 1, fin := p.getLsbD 0 } := by
  obtain ⟨h7, h6, h5, h4, h3, h2, h1, h0⟩ := masks_are_single_bits
  simp only [getFlags, getCwr, getEce, getUrg, getAck, getPsh, getRst, getSyn, getFin, h7, h6, h5, h4, h3, h2, h1, h0]
  rw [getFlag_twoPow _ _ (by omega), getFlag_twoPow _ _ (by omega), getFlag_twoPow _ _ (by omega),
    getFlag_twoPow _ _ (by omega), getFlag_twoPow _ _ (by omega), getFlag_twoPow _ _ (by omega),
    getFlag_twoPow _ _ (by omega), getFlag_twoPow _ _ (by omega)]

theorem getDoff_pair (d r : BitVec 4) (f : TcpFlags) : getDoff (pairWithReserved d r f) = d := by
  apply BitVec.eq_of_getLsbD_eq
  intro i hi
  rw [getDoff_getLsbD _ _ hi, pairWithReserved_getLsbD _ _ _ _ (by omega)]
  simp [show ¬ 12 + i < 8 by omega, show ¬ 12 + i < 12 by omega]

theorem getRsv_pair (d r : BitVec 4) (f : TcpFlags) : getRsv (pairWithReserved d r f) = r := by
  apply BitVec.eq_of_getLsbD_eq
  intro i hi
  rw [getRsv_getLsbD _ _ hi, pairWithReserved_getLsbD _ _ _ _ (by omega)]
  simp [show ¬ 8 + i < 8 by omega, show 8 + i < 12 by omega]

theorem getFlags_pair (d r : BitVec 4) (f : TcpFlags) : getFlags (pairWithReserved d r f) = f := by
  rw [getFlags_eq]
  simp only [pairWithReserved_getLsbD d r f _ (show 7 < 16 by omega), pairWithReserved_getLsbD d r f _ (show 6 < 16 by omega),
    pairWithReserved_getLsbD d r f _ (show 5 < 16 by omega), pairWithReserved_getLsbD d r f _ (show 4 < 16 by omega),
    pairWithReserved_getLsbD d r f _ (show 3 < 16 by omega), pairWithReserved_getLsbD d r f _ (show 2 < 16 by omega),
    pairWithReserved_getLsbD d r f _ (show 1 < 16 by omega), pairWithReserved_getLsbD d r f _ (show 0 < 16 by omega),
    flagBits_getLsbD]
  simp

/-- The pair is made again from the fields it holds. -/
theorem pair_of_fields (p : Word16) : pairWithReserved (getDoff p) (getRsv p) (getFlags p) = p := by
  apply BitVec.eq_of_getLsbD_eq
  intro i hi
  rw [pairWithReserved_getLsbD _ _ _ _ hi]
  by_cases h8 : i < 8
  · have : i = 0 ∨ i = 1 ∨ i = 2 ∨ i = 3 ∨ i = 4 ∨ i = 5 ∨ i = 6 ∨ i = 7 := by omega
    rw [getFlags_eq]
    rcases this with rfl | rfl | rfl | rfl | rfl | rfl | rfl | rfl <;>
      (rw [if_pos (by omega), flagBits_getLsbD]; simp)
  · by_cases h12 : i < 12
    · simp only [h8, h12, if_true, if_false]
      rw [getRsv_getLsbD _ _ (by omega), show 8 + (i - 8) = i by omega]
    · simp only [h8, h12, if_false]
      rw [getDoff_getLsbD _ _ (by omega), show 12 + (i - 12) = i by omega]

end Sys2Proof.Machine
end

