-- ==== Sys2Proof/Laws/Decode.lean ====
section
/-! SUPPORT. Laws of the decoder: where each row is read, and what a wire word that decodes must be. -/

namespace Sys2Proof

/-- The positions at which each row of format WIRE32 is read. -/
def Slot.holdsAt (slot : Slot) (pos : Nat) : Prop :=
  match slot with
  | .pseudoW0 => pos = 0
  | .pseudoW1 => pos = 4
  | .pseudoW2 => pos = 8
  | .tcphdrW0 => pos = 12
  | .tcphdrW1 => pos = 16
  | .tcphdrW2 => pos = 20
  | .tcphdrW3 => pos = 24
  | .tcphdrW4 => pos = 28
  | .tcphdrOpt => 32 ≤ pos ∧ pos < 72 ∧ pos % 4 = 0

theorem slotAt_holdsAt (pos : Nat) (slot : Slot) (h : slotAt pos = some slot) : slot.holdsAt pos := by
  unfold slotAt at h
  split_ifs at h <;> (cases h; assumption)

/-- The options area is the last row asked for, and none before it claims its positions. -/
theorem slotAt_opt (pos : Nat) (h : 32 ≤ pos ∧ pos < 72 ∧ pos % 4 = 0) : slotAt pos = some .tcphdrOpt := by
  unfold slotAt
  split_ifs <;> first | rfl | omega

/-- A wire word that decodes is four bytes read by the row of its position. -/
theorem decode_wire_ok (pos : Nat) (bs : Bytes) (i : Instr) (h : decode pos (.wire bs) = .ok i) :
    ∃ slot, bs.length = 4 ∧ slotAt pos = some slot ∧ decodeWord slot bs = .ok i := by
  simp only [decode] at h
  split at h
  · rename_i hl
    split at h
    · rename_i slot hs
      exact ⟨slot, hl, hs, h⟩
    · cases h
  · cases h

theorem decode_wire_of_slot (pos : Nat) (bs : Bytes) (slot : Slot) (hl : bs.length = 4) (hs : slotAt pos = some slot) :
    decode pos (.wire bs) = decodeWord slot bs := by
  simp [decode, hl, hs]

theorem bytes_of_length_four (bs : Bytes) (h : bs.length = 4) : ∃ a b c d, bs = [a, b, c, d] := by
  match bs, h with
  | [a, b, c, d], _ => exact ⟨a, b, c, d, rfl⟩

end Sys2Proof
end

