-- ==== Sys2Proof/Laws/Operands.lean ====
section
/-! SUPPORT. What the admission conditions and the data-offset check say (30_encoding.md R74, 41_header_codec.md R131). -/

namespace Sys2Proof.Machine

theorem isTcp_iff (ph : PseudoHeader) : isTcp ph = true ↔ ph.protocol = 6 := by simp [isTcp]

theorem checksumFits_iff (hb pl : Bytes) : checksumFits hb pl = true ↔ hb.length + pl.length ≤ 65535 := by
  simp [checksumFits]

theorem offsetConsistent_iff (f : Fields) :
    offsetConsistent f = true ↔
      5 + (f.options.length + 3) / 4 ≤ 15 ∧
      (f.dataOffsetValid = true → f.dataOffset.toNat = 5 + (f.options.length + 3) / 4) := by
  rw [offsetConsistent, Bool.and_eq_true, decide_eq_true_iff, derivedOffset]
  cases f.dataOffsetValid <;> simp

theorem buildFits_iff (f : Fields) (pl : Bytes) :
    buildFits f pl = true ↔
      (5 + (f.options.length + 3) / 4 ≤ 15 →
        (f.dataOffsetValid = true → f.dataOffset.toNat = 5 + (f.options.length + 3) / 4) →
        4 * (5 + (f.options.length + 3) / 4) + pl.length ≤ 65535) := by
  have hc := offsetConsistent_iff f
  rw [buildFits, Bool.or_eq_true, decide_eq_true_iff, derivedOffset]
  cases h : offsetConsistent f
  · rw [h] at hc
    simp only [Bool.not_false, true_or, true_iff]
    intro h1 h2
    exact absurd (hc.2 ⟨h1, h2⟩) (by simp)
  · rw [h] at hc
    obtain ⟨h1, h2⟩ := hc.1 rfl
    simp only [Bool.not_true, Bool.false_eq_true, false_or]
    exact ⟨fun h _ _ => h, fun h => h h1 h2⟩

@[simp] theorem totalLength_mk (h : TcpHeader) (pl : Bytes) :
    ({ header := h, payload := pl } : Segment).totalLength = 4 * h.dataOffset.toNat + pl.length := rfl

/-- Padded options fill the header the derived offset declares (R132). -/
theorem padOptions_length (options : Bytes) : (padOptions options).length = 4 * (derivedOffset options - 5) := by
  simp only [padOptions, derivedOffset, List.length_append, List.length_replicate]
  omega

/-- Options that are a multiple of 4 bytes are not padded (R132). -/
theorem padOptions_of_multiple (options : Bytes) (h : options.length % 4 = 0) : padOptions options = options := by
  have hz : 4 * (5 + (options.length + 3) / 4 - 5) - options.length = 0 := by omega
  rw [padOptions, derivedOffset, hz]
  simp

end Sys2Proof.Machine
end

