-- ==== Sys2Proof/Laws/State.lean ====
section
/-! SUPPORT. One lemma per field per update of the state. -/

namespace Sys2Proof.Machine

namespace State

variable (s : State) (r : Response) (p : Presented) (b : Byte)

@[simp] theorem start_presented : s.start.presented = s.presented := rfl
@[simp] theorem start_rsp : s.start.rsp = s.rsp := rfl
@[simp] theorem start_acc : s.start.acc = 0 := rfl
@[simp] theorem start_odd_valid : s.start.odd.valid = false := rfl
@[simp] theorem start_odd_byte : s.start.odd.byte = s.odd.byte := rfl
@[simp] theorem start_pos : s.start.pos = 0 := rfl

@[simp] theorem respond_presented : (s.respond r).presented = s.presented := rfl
@[simp] theorem respond_rsp : (s.respond r).rsp = some r := rfl
@[simp] theorem respond_acc : (s.respond r).acc = 0 := rfl
@[simp] theorem respond_odd_valid : (s.respond r).odd.valid = false := rfl
@[simp] theorem respond_odd_byte : (s.respond r).odd.byte = s.odd.byte := rfl
@[simp] theorem respond_pos : (s.respond r).pos = 0 := rfl

@[simp] theorem present_presented : (s.present p).presented = s.presented ++ [p] := rfl
@[simp] theorem present_rsp : (s.present p).rsp = s.rsp := rfl
@[simp] theorem present_acc : (s.present p).acc = s.acc := rfl
@[simp] theorem present_odd : (s.present p).odd = s.odd := rfl
@[simp] theorem present_pos : (s.present p).pos = s.pos := rfl

@[simp] theorem reset_presented : reset.presented = [] := rfl
@[simp] theorem reset_rsp : reset.rsp = none := rfl
@[simp] theorem reset_acc : reset.acc = 0 := rfl
@[simp] theorem reset_odd : reset.odd = { valid := false, byte := 0 } := rfl
@[simp] theorem reset_pos : reset.pos = 0 := rfl
@[simp] theorem resetInput_eq : s.resetInput = reset := rfl

@[simp] theorem feedByte_presented : (s.feedByte b).presented = s.presented := by
  unfold feedByte; split <;> rfl
@[simp] theorem feedByte_rsp : (s.feedByte b).rsp = s.rsp := by
  unfold feedByte; split <;> rfl
@[simp] theorem feedByte_pos : (s.feedByte b).pos = s.pos + 1 := by
  unfold feedByte; split <;> rfl
@[simp] theorem feedByte_odd_valid : (s.feedByte b).odd.valid = !s.odd.valid := by
  unfold feedByte; split <;> simp_all

theorem feedByte_of_valid (h : s.odd.valid = true) :
    s.feedByte b = { s with acc := s.acc + (s.odd.byte ++ b : Word16).setWidth 32,
                            odd := { s.odd with valid := false }, pos := s.pos + 1 } := by
  simp [feedByte, h]

theorem feedByte_of_not_valid (h : s.odd.valid = false) :
    s.feedByte b = { s with odd := { valid := true, byte := b }, pos := s.pos + 1 } := by
  simp [feedByte, h]

@[simp] theorem feed_nil : s.feed [] = s := rfl
@[simp] theorem feed_cons (bs : Bytes) : s.feed (b :: bs) = (s.feedByte b).feed bs := rfl

theorem feed_append (xs ys : Bytes) : s.feed (xs ++ ys) = (s.feed xs).feed ys := by
  simp [feed, List.foldl_append]

/-- What feeding bytes leaves alone, whichever bytes they are. -/
theorem feed_frame (bs : Bytes) :
    (s.feed bs).presented = s.presented ∧ (s.feed bs).rsp = s.rsp ∧ (s.feed bs).pos = s.pos + bs.length := by
  induction bs generalizing s with
  | nil => simp
  | cons b bs ih =>
    obtain ⟨h1, h2, h3⟩ := ih (s.feedByte b)
    refine ⟨by simpa using h1, by simpa using h2, ?_⟩
    simp only [feed_cons, h3, feedByte_pos, List.length_cons]
    omega

theorem fetch_nil (h : s.presented = []) : s.fetch = none := by simp [fetch, h]

theorem fetch_cons {rest : List Presented} (h : s.presented = p :: rest) :
    s.fetch = some (p, { s with presented := rest }) := by simp [fetch, h]

end State

end Sys2Proof.Machine
end

