-- ==== Sys2Proof/Laws/Exec.lean ====
section
/-! SUPPORT. What the shared operations and exec can do, said once. -/

namespace Sys2Proof.Machine

@[simp] theorem answer_eq (r : Results) (s : State) : answer r s = .next (s.respond (.ok r)) := rfl
@[simp] theorem raise_eq (e : ParseError) (s : State) : raise e s = .next (s.respond (.err e)) := rfl
@[simp] theorem feedWord_eq (bs : Bytes) (s : State) : feedWord bs s = .next (s.feed bs) := rfl

/-- A command with a pseudo-header is refused exactly when a condition of R74 fails. -/
theorem refusalOf_eq_none (ph : PseudoHeader) (fits : Bool) (n : Nat) :
    refusalOf ph fits n = none ↔ isTcp ph = true ∧ fits = true := by
  unfold refusalOf
  cases isTcp ph <;> cases fits <;> simp

/-- R74 for OP 1 and 2, as a condition on the operands. -/
theorem checksumRefusal_eq_none (ph : PseudoHeader) (hb pl : Bytes) :
    checksumRefusal ph hb pl = none ↔ ph.protocol = 6 ∧ hb.length + pl.length ≤ 65535 := by
  rw [checksumRefusal, refusalOf_eq_none, isTcp_iff, checksumFits_iff]

/-- HDR.BUILD has two ends (R130). -/
theorem buildHeader_cases (f : Fields) (pl : Bytes) (ph : PseudoHeader) :
    (offsetConsistent f = true ∧ buildHeader f pl ph = .ok (memWrite16 (assemble f) 16 (csum ph (assemble f) pl))) ∨
    (offsetConsistent f = false ∧ buildHeader f pl ph = .error .invalidDataOffset) := by
  unfold buildHeader
  cases offsetConsistent f <;> simp

/-- HDR.PARSE has three ends (R135). -/
theorem parseHeader_cases (b : Bytes) :
    (b.length < 20 ∧ parseHeader b = .error .tooShort) ∨
    (20 ≤ b.length ∧ (b.length < 4 * declaredOffset b ∨ declaredOffset b < 5) ∧
      parseHeader b = .error .invalidDataOffset) ∨
    (20 ≤ b.length ∧ 4 * declaredOffset b ≤ b.length ∧ 5 ≤ declaredOffset b ∧
      parseHeader b = .ok (extractHeader b)) := by
  unfold parseHeader Config.hdrMin
  by_cases h1 : b.length < 20
  · exact .inl ⟨h1, by simp [h1]⟩
  · by_cases h2 : b.length < 4 * declaredOffset b ∨ 4 * declaredOffset b < 20
    · exact .inr (.inl ⟨by omega, by omega, by simp [h1, h2]⟩)
    · exact .inr (.inr ⟨by omega, by omega, by omega, by simp [h1, h2]⟩)

/-! ### Each operation on its admitted domain, as a response given -/

theorem exec_csumCompute (ph : PseudoHeader) (hb pl : Bytes) (s : State) (h : ph.protocol = 6)
    (hl : hb.length + pl.length ≤ 65535) :
    exec (.csumCompute ph hb pl) s = .next (s.respond (csumResponse (csum ph hb pl))) := by
  simp [exec, execCsumCompute, checksumRefusal, refusalOf, (isTcp_iff ph).2 h, (checksumFits_iff hb pl).2 hl,
    csumResponse]

theorem exec_csumVerify (ph : PseudoHeader) (hb pl : Bytes) (s : State) (h : ph.protocol = 6)
    (hl : hb.length + pl.length ≤ 65535) :
    exec (.csumVerify ph hb pl) s = .next (s.respond (validResponse (verifies ph hb pl))) := by
  simp [exec, execCsumVerify, checksumRefusal, refusalOf, (isTcp_iff ph).2 h, (checksumFits_iff hb pl).2 hl,
    validResponse]

/-- The response HDR.BUILD gives for an end of its function. -/
def buildResponse : Except ParseError Bytes → Response
  | .ok out => outResponse out
  | .error e => .err e

/-- The response SEG.TO_BYTES gives for an end of HDR.BUILD's function. -/
def toBytesResponse (pl : Bytes) : Except ParseError Bytes → Response
  | .ok out => segmentBytesResponse (out ++ pl) (out.length + pl.length)
  | .error e => .err e

/-- The response HDR.PARSE gives for an end of its function. -/
def parseResponse : Except ParseError TcpHeader → Response
  | .ok h => headerResponse h
  | .error e => .err e

/-- The response SEG.FROM_BYTES gives for an end of HDR.PARSE's function. -/
def fromBytesResponse (b : Bytes) : Except ParseError TcpHeader → Response
  | .ok h => segmentResponse h (payloadOf h b) b.length
  | .error e => .err e

theorem exec_hdrBuild (f : Fields) (pl : Bytes) (ph : PseudoHeader) (s : State) (h : ph.protocol = 6)
    (hf : buildFits f pl = true) :
    exec (.hdrBuild f pl ph) s = .next (s.respond (buildResponse (buildHeader f pl ph))) := by
  simp only [exec, execHdrBuild, buildRefusal, refusalOf, (isTcp_iff ph).2 h, hf, if_true]
  cases buildHeader f pl ph <;> rfl

theorem exec_segToBytes (f : Fields) (pl : Bytes) (ph : PseudoHeader) (s : State) (h : ph.protocol = 6)
    (hf : buildFits f pl = true) :
    exec (.segToBytes f pl ph) s = .next (s.respond (toBytesResponse pl (buildHeader f pl ph))) := by
  simp only [exec, execSegToBytes, buildRefusal, refusalOf, (isTcp_iff ph).2 h, hf, if_true]
  cases buildHeader f pl ph <;> rfl

theorem exec_hdrParse (b : Bytes) (s : State) :
    exec (.hdrParse b) s = .next (s.respond (parseResponse (parseHeader b))) := by
  simp only [exec, execHdrParse]
  cases parseHeader b <;> rfl

theorem exec_segFromBytes (b : Bytes) (s : State) :
    exec (.segFromBytes b) s = .next (s.respond (fromBytesResponse b (parseHeader b))) := by
  simp only [exec, execSegFromBytes]
  cases parseHeader b <;> rfl

/-- A condition of R74 that fails refuses the command. -/
theorem refusalOf_some (ph : PseudoHeader) (fits : Bool) (n : Nat) (h : ¬ (isTcp ph = true ∧ fits = true)) :
    ∃ r, refusalOf ph fits n = some r := by
  cases hr : refusalOf ph fits n with
  | none => exact absurd ((refusalOf_eq_none ph fits n).1 hr) h
  | some r => exact ⟨r, rfl⟩

/-- An instruction that answers a given response answers no other. -/
theorem responds_iff (i : Instr) (s : State) (r r' : Response) (h : exec i s = .next (s.respond r)) :
    Responds i s r' ↔ r' = r := by
  unfold Responds
  rw [h]
  simp only [Host.Outcome.next.injEq, exists_eq_left', State.respond_rsp, Option.some.injEq]
  exact eq_comm

/-- What exec can answer: a response given, four bytes fed, or a refusal. It never faults. -/
theorem exec_cases (i : Instr) (s : State) :
    (∃ r, exec i s = .next (s.respond r)) ∨ (∃ bs : Bytes, bs.length = 4 ∧ exec i s = .next (s.feed bs)) ∨
    (∃ r, exec i s = .refused r) := by
  cases i with
  | csumCompute ph hb pl =>
    simp only [exec, execCsumCompute]
    cases checksumRefusal ph hb pl with
    | none => exact .inl ⟨_, rfl⟩
    | some r => exact .inr (.inr ⟨r, rfl⟩)
  | csumVerify ph hb pl =>
    simp only [exec, execCsumVerify]
    cases checksumRefusal ph hb pl with
    | none => exact .inl ⟨_, rfl⟩
    | some r => exact .inr (.inr ⟨r, rfl⟩)
  | hdrBuild f pl ph =>
    simp only [exec, execHdrBuild]
    cases buildRefusal f pl ph with
    | none => cases buildHeader f pl ph <;> exact .inl ⟨_, rfl⟩
    | some r => exact .inr (.inr ⟨r, rfl⟩)
  | hdrParse b =>
    simp only [exec, execHdrParse]
    cases parseHeader b <;> exact .inl ⟨_, rfl⟩
  | segToBytes f pl ph =>
    simp only [exec, execSegToBytes]
    cases buildRefusal f pl ph with
    | none => cases buildHeader f pl ph <;> exact .inl ⟨_, rfl⟩
    | some r => exact .inr (.inr ⟨r, rfl⟩)
  | segFromBytes b =>
    simp only [exec, execSegFromBytes]
    cases parseHeader b <;> exact .inl ⟨_, rfl⟩
  | reservedOp0 => exact .inr (.inr ⟨_, rfl⟩)
  | reservedOp7 => exact .inr (.inr ⟨_, rfl⟩)
  | tcphdrW0 sp dp => exact .inr (.inl ⟨_, rfl, rfl⟩)
  | tcphdrW1 q => exact .inr (.inl ⟨_, rfl, rfl⟩)
  | tcphdrW2 a => exact .inr (.inl ⟨_, rfl, rfl⟩)
  | tcphdrW3 d r f w => exact .inr (.inl ⟨_, rfl, rfl⟩)
  | tcphdrW4 k u => exact .inr (.inl ⟨_, rfl, rfl⟩)
  | tcphdrOpt x0 x1 x2 x3 => exact .inr (.inl ⟨[x0, x1, x2, x3], rfl, rfl⟩)
  | pseudoW0 a => exact .inr (.inl ⟨_, rfl, rfl⟩)
  | pseudoW1 a => exact .inr (.inl ⟨_, rfl, rfl⟩)
  | pseudoW2 p l =>
    simp only [exec, execPseudoW2]
    split
    · exact .inr (.inl ⟨_, rfl, rfl⟩)
    · exact .inr (.inr ⟨_, rfl⟩)
  | status code =>
    simp only [exec, execStatus]
    split
    · exact .inl ⟨_, rfl⟩
    · exact .inl ⟨_, rfl⟩
    · exact .inl ⟨_, rfl⟩
    · exact .inr (.inr ⟨_, rfl⟩)

/-- What step can answer: nothing presented and nothing changed, exec of the decoded item, or a refusal to decode. -/
theorem step_cases (s : State) :
    (s.presented = [] ∧ step s = .next s) ∨
    (∃ p rest i, s.presented = p :: rest ∧ decode s.pos p = .ok i ∧ step s = exec i { s with presented := rest }) ∨
    (∃ p rest e, s.presented = p :: rest ∧ decode s.pos p = .error e ∧ step s = .refused (.undecodable e)) := by
  cases hp : s.presented with
  | nil => exact .inl ⟨rfl, by simp [step, State.fetch, hp]⟩
  | cons p rest =>
    cases hd : decode s.pos p with
    | ok i => exact .inr (.inl ⟨p, rest, i, rfl, hd, by simp [step, State.fetch, hp, hd]⟩)
    | error e => exact .inr (.inr ⟨p, rest, e, rfl, hd, by simp [step, State.fetch, hp, hd]⟩)

end Sys2Proof.Machine
end

