-- ==== Sys2Proof/Laws/PerInstr.lean ====
section
/-! SUPPORT. Per-instruction laws of the encoder: the format and code the opcode table gives each row. -/

namespace Sys2Proof.Laws.TableFormat

/-- What the table says of a row's encoding before its operands: the OP of a CMD row, the four bytes of a WIRE32 row, the
code of the RSP row (30_encoding.md R60, R70, R72). -/
inductive Format where
  | cmd (op : Nat)
  | wire32
  | rsp
  deriving DecidableEq, Repr

/-- The format an item at the block's input has. -/
def ofPresented : Presented → Option Format
  | .command op _ => some (.cmd op.toNat)
  | .wire bs => if bs.length = 4 then some .wire32 else none
  | .status _ => some .rsp

/-- The format of an instruction's row. -/
def ofInstr : Instr → Format
  | .csumCompute _ _ _ => .cmd 1
  | .csumVerify _ _ _ => .cmd 2
  | .hdrBuild _ _ _ => .cmd 3
  | .hdrParse _ => .cmd 4
  | .segToBytes _ _ _ => .cmd 5
  | .segFromBytes _ => .cmd 6
  | .reservedOp0 => .cmd 0
  | .reservedOp7 => .cmd 7
  | .tcphdrW0 _ _ => .wire32
  | .tcphdrW1 _ => .wire32
  | .tcphdrW2 _ => .wire32
  | .tcphdrW3 _ _ _ _ => .wire32
  | .tcphdrW4 _ _ => .wire32
  | .tcphdrOpt _ _ _ _ => .wire32
  | .pseudoW0 _ => .wire32
  | .pseudoW1 _ => .wire32
  | .pseudoW2 _ _ => .wire32
  | .status _ => .rsp

/-- The encoder writes the row's format and code. -/
def Statement (i : Instr) : Prop := ofPresented (encode i) = some (ofInstr i)

theorem csumCompute (ph : PseudoHeader) (hb pl : Bytes) : Statement (.csumCompute ph hb pl) := rfl
theorem csumVerify (ph : PseudoHeader) (hb pl : Bytes) : Statement (.csumVerify ph hb pl) := rfl
theorem hdrBuild (f : Fields) (pl : Bytes) (ph : PseudoHeader) : Statement (.hdrBuild f pl ph) := rfl
theorem hdrParse (b : Bytes) : Statement (.hdrParse b) := rfl
theorem segToBytes (f : Fields) (pl : Bytes) (ph : PseudoHeader) : Statement (.segToBytes f pl ph) := rfl
theorem segFromBytes (b : Bytes) : Statement (.segFromBytes b) := rfl
theorem reservedOp0 : Statement .reservedOp0 := rfl
theorem reservedOp7 : Statement .reservedOp7 := rfl
theorem tcphdrW0 (sp dp : Word16) : Statement (.tcphdrW0 sp dp) := rfl
theorem tcphdrW1 (q : Word32) : Statement (.tcphdrW1 q) := rfl
theorem tcphdrW2 (a : Word32) : Statement (.tcphdrW2 a) := rfl
theorem tcphdrW3 (d r : BitVec 4) (f : TcpFlags) (w : Word16) : Statement (.tcphdrW3 d r f w) := rfl
theorem tcphdrW4 (k u : Word16) : Statement (.tcphdrW4 k u) := rfl
theorem tcphdrOpt (x0 x1 x2 x3 : Byte) : Statement (.tcphdrOpt x0 x1 x2 x3) := rfl
theorem pseudoW0 (a : Word32) : Statement (.pseudoW0 a) := rfl
theorem pseudoW1 (a : Word32) : Statement (.pseudoW1 a) := rfl
theorem pseudoW2 (p : Byte) (l : Word16) : Statement (.pseudoW2 p l) := rfl
theorem status (code : BitVec 2) : Statement (.status code) := rfl

end Sys2Proof.Laws.TableFormat
end

