-- ==== Sys2Proof/Tests/Slice0.lean ====
section
/-! SUPPORT. Tests: ill-formed terms the check refuses, words written out from the encodings of 30_encoding.md, the vectors of
95_test_vectors.md one step each, and a witness for the hypotheses of every statement. -/

namespace Sys2Proof.Tests

open Sys2Proof.Machine

/-! ### The operands of 95_test_vectors.md -/

/-- The default pseudo-header (192.0.2.1, 198.51.100.7, 6). -/
def ph : PseudoHeader := { src := 0xC0000201, dst := 0xC6336407, protocol := 6 }

/-- The pseudo-header of the vectors V-C1 to V-C4. -/
def phZero : PseudoHeader := { src := 0, dst := 0, protocol := 6 }

/-- A pseudo-header outside the admitted domain (V-X3). -/
def phUdp : PseudoHeader := { ph with protocol := 17 }

/-- Flags with only SYN set. -/
def synOnly : TcpFlags := { Operands.blank.f.flags with syn := true }

/-- The base header H1 (S-6) with `k` in its checksum field. -/
def headerWith (k1 k2 : Byte) : Bytes :=
  [0x30, 0x39, 0x00, 0x50, 0x00, 0x00, 0x03, 0xE8, 0x00, 0x00, 0x00, 0x00, 0x50, 0x02, 0xFA, 0xF0, k1, k2, 0x00, 0x00]

/-- H1 of the vectors. -/
def h1 : Bytes := headerWith 0x94 0x44

/-- The fields of V-B1. -/
def fields : Fields :=
  { Operands.blank.f with
    sourcePort := 12345, destinationPort := 80, sequenceNumber := 1000, flags := synOnly, windowSize := 64240 }

/-- The fields of V-B4. -/
def fieldsOptions : Fields := { fields with options := [0x02, 0x04, 0x05, 0xB4] }

/-- The header of S-2: zero but for the data-offset nibble `d`, `n` bytes long. -/
def nibbleHeader (x : Byte) (n : Nat) : Bytes := List.replicate 12 0x00 ++ [x] ++ List.replicate (n - 13) 0x00

/-- The header H1 parses to (V-P1), with `k` as its checksum. -/
def parsed (k : Word16) : TcpHeader :=
  { sourcePort := 12345, destinationPort := 80, sequenceNumber := 1000, acknowledgmentNumber := 0, dataOffset := 5,
    reserved := 0, flags := synOnly, windowSize := 64240, checksum := k, urgentPointer := 0, options := [] }

/-- The response pending after an instruction, if it completes with one. -/
def responseOf (i : Instr) (s : State) : Option Response := (nextState? (exec i s)).bind State.rsp

/-- The refusal an instruction ends in, if it does. -/
def refusal? : Host.Outcome State Fault Refusal → Option Refusal
  | .next _ => none
  | .fault _ => none
  | .refused r => some r

theorem responds_of (i : Instr) (s : State) (r : Response) (h : responseOf i s = some r) : Responds i s r := by
  unfold responseOf at h
  cases he : exec i s with
  | next t => rw [he] at h; exact ⟨t, he, h⟩
  | fault f => cases f
  | refused q => rw [he] at h; cases h

/-! ### Well-formedness: one ill-formed term for each check -/

theorem test_wf_reserved_op : Instr.reservedOp0.illFormed = some .reservedOp ∧ Instr.reservedOp7.illFormed = some .reservedOp := by
  decide
theorem test_wf_protocol : (Instr.csumCompute phUdp [] []).illFormed = some .protocolNotTcp := by decide
theorem test_wf_protocol_word : (Instr.pseudoW2 17 20).illFormed = some .protocolNotTcp := by decide
/-- 65535 bytes are admitted and 65536 are not (V-X4). -/
theorem long_fits (n : Nat) : checksumFits (List.replicate n 0) [] = decide (n ≤ 65535) := by
  rw [checksumFits, List.length_replicate]; rfl
theorem test_wf_length : (Instr.csumVerify ph (List.replicate 65536 0) []).illFormed = some .segmentTooLong := by
  rw [Instr.illFormed, long_fits]; decide
/-- V-B15. -/
theorem test_wf_build_length : (Instr.hdrBuild fields (List.replicate 65516 0) ph).illFormed = some .segmentTooLong := by
  rw [Instr.illFormed, buildFits, List.length_replicate]; decide
theorem test_wf_status : (Instr.status 3).illFormed = some .reservedStatus := by decide

/-! ### Decoding: words written out from 30_encoding.md -/

theorem test_decode_commands :
    (List.range 8).map (fun op => decode 0 (.command (BitVec.ofNat 3 op) { Operands.blank with hb := [1], pl := [2], b := [3] })) =
      [.ok .reservedOp0, .ok (.csumCompute Operands.blank.ph [1] [2]), .ok (.csumVerify Operands.blank.ph [1] [2]),
       .ok (.hdrBuild Operands.blank.f [2] Operands.blank.ph), .ok (.hdrParse [3]),
       .ok (.segToBytes Operands.blank.f [2] Operands.blank.ph), .ok (.segFromBytes [3]), .ok .reservedOp7] := by decide
/-- R64, R60, R63: the words of the stream of S-6, and an options word. -/
theorem test_decode_pseudo_words :
    decode 0 (.wire [0xC0, 0x00, 0x02, 0x01]) = .ok (.pseudoW0 0xC0000201) ∧
    decode 4 (.wire [0xC6, 0x33, 0x64, 0x07]) = .ok (.pseudoW1 0xC6336407) ∧
    decode 8 (.wire [0x00, 0x06, 0x00, 0x14]) = .ok (.pseudoW2 6 20) := by decide
theorem test_decode_header_words :
    decode 12 (.wire [0x30, 0x39, 0x00, 0x50]) = .ok (.tcphdrW0 12345 80) ∧
    decode 16 (.wire [0x00, 0x00, 0x03, 0xE8]) = .ok (.tcphdrW1 1000) ∧
    decode 20 (.wire [0xA0, 0xB0, 0xC0, 0xD0]) = .ok (.tcphdrW2 2695938256) ∧
    decode 24 (.wire [0x5F, 0x02, 0xFA, 0xF0]) = .ok (.tcphdrW3 5 15 synOnly 64240) ∧
    decode 28 (.wire [0x94, 0x44, 0xBE, 0xEF]) = .ok (.tcphdrW4 0x9444 48879) ∧
    decode 68 (.wire [0x02, 0x04, 0x05, 0xB4]) = .ok (.tcphdrOpt 0x02 0x04 0x05 0xB4) := by decide
theorem test_decode_status : decode 0 (.status 1) = .ok (.status 1) := by decide
theorem test_decode_rejects :
    decode 8 (.wire [0x01, 0x06, 0x00, 0x14]) = .error .pseudoZeroByte ∧
    decode 72 (.wire [0, 0, 0, 0]) = .error (.noLayoutAt 72) ∧ decode 30 (.wire [0, 0, 0, 0]) = .error (.noLayoutAt 30) ∧
    decode 0 (.wire [0, 0, 0]) = .error (.notAWord 3) := by decide
theorem test_table_words :
    decodeTableWord 8 1 = some (.csumCompute Operands.blank.ph [] []) ∧ decodeTableWord 8 7 = some .reservedOp7 ∧
    decodeTableWord 32 0x30390050 = some (.tcphdrW0 12345 80) ∧ decodeTableWord 32 0x00060014 = some (.pseudoW2 6 20) ∧
    decodeTableWord 2 2 = some (.status 2) ∧ decodeTableWord 8 9 = none := by decide
theorem test_fetch_word_steps :
    (nextState? (step (State.reset.withFetchWord 32 0x00060014))).map (·.acc) = some 26 ∧
    (nextState? (step (State.reset.withFetchWord 8 4))).bind (·.rsp) = some (.err .tooShort) := by decide

/-! ### The vectors of 95_test_vectors.md -/

/-- V-F4, V-F6, V-F8, V-F9, V-F11. -/
theorem test_fold : [0x10000, 0x1FFFF, 0xFFFFFFFF, 0x36BB8, 0x8000FFFF].map (foldPasses 2) = [1, 1, 0xFFFF, 0x6BBB, 0x8000] := by
  decide
/-- V-A3, V-A5, V-A6, V-A9, V-A11, V-A13. -/
theorem test_accessors :
    setDoff 0x0FFF 5 = 0x5FFF ∧ getRsv 0x5F02 = 15 ∧ clrRsv 0x5FFF = 0x50FF ∧ setSyn 0x5FFF false = 0x5FFD ∧
    pack 5 synOnly = 0x5002 ∧ (unpack 0x5FFF).2.1 = 15 := by decide
/-- V-C2 and V-C4: an odd total, and words that straddle the two parts. -/
theorem test_csum_compute_odd :
    responseOf (.csumCompute phZero [] [0xAB]) .reset = some (csumResponse 0x54F8) ∧
    responseOf (.csumCompute phZero [0xAB] [0xCD, 0xEF]) .reset = some (csumResponse 0x6528) := by decide
/-- V-C7: the zero substitution. -/
theorem test_csum_compute_zero :
    responseOf (.csumCompute ph ((headerWith 0 0).set 14 0x8F |>.set 15 0x35) []) .reset = some (csumResponse 0xFFFF) := by
  decide
/-- V-V1 and V-V5. -/
theorem test_csum_verify :
    responseOf (.csumVerify ph h1 []) .reset = some (validResponse true) ∧
    responseOf (.csumVerify ph (h1.set 13 0x12) []) .reset = some (validResponse false) := by decide
/-- V-B5: one pad byte (the value is presumed, log entry 5). -/
theorem test_hdr_build_pads :
    responseOf (.hdrBuild { fields with options := [0x03, 0x03, 0x07] } [] ph) .reset =
      some (outResponse ([0x30, 0x39, 0x00, 0x50, 0x00, 0x00, 0x03, 0xE8, 0x00, 0x00, 0x00, 0x00, 0x60, 0x02, 0xFA, 0xF0,
        0x7A, 0x3C, 0x00, 0x00, 0x03, 0x03, 0x07, 0x01])) := by decide
/-- V-B11. -/
theorem test_hdr_build_offset :
    responseOf (.hdrBuild { fields with dataOffsetValid := true, dataOffset := 6 } [] ph) .reset =
      some (.err .invalidDataOffset) := by decide
/-- V-P15 and V-P14's reserved bits. -/
theorem test_hdr_parse :
    responseOf (.hdrParse (headerWith 0xDE 0xAD)) .reset = some (headerResponse (parsed 0xDEAD)) ∧
    (parseHeader ((nibbleHeader 0x5F 20).set 13 0xFF)).map (·.reserved) = .ok 15 := by decide
/-- V-P9, V-P7, V-P12: the priority, the lower bound, the buffer bound. -/
theorem test_hdr_parse_errors :
    responseOf (.hdrParse (nibbleHeader 0x40 19)) .reset = some (.err .tooShort) ∧
    responseOf (.hdrParse (nibbleHeader 0x40 20)) .reset = some (.err .invalidDataOffset) ∧
    responseOf (.hdrParse (nibbleHeader 0xF0 59)) .reset = some (.err .invalidDataOffset) := by decide
/-- V-V1, V-V4, V-X3 and a header that does not reach its checksum: VERIFY.RECOMPUTE (R79). -/
theorem test_verify_recompute :
    verifyRecompute ph h1 [] = some true ∧
    verifyRecompute ph ((headerWith 0 0).set 14 0x8F |>.set 15 0x35) [] = some false ∧
    verifyRecompute phUdp h1 [] = none ∧ verifyRecompute ph (h1.take 17) [] = none := by decide
/-- V-S2: the header of 20 bytes and the payload of 3. -/
theorem test_total_length : ({ header := parsed 0xCFDE, payload := [0x61, 0x62, 0x63] } : Segment).totalLength = 23 := by decide
/-- V-S1: no pad byte is emitted. -/
theorem test_seg_to_bytes :
    responseOf (.segToBytes fields [0x61, 0x62, 0x63] ph) .reset =
      some (segmentBytesResponse (headerWith 0xCF 0xDE ++ [0x61, 0x62, 0x63]) 23) := by decide
/-- V-S2. -/
theorem test_seg_from_bytes :
    responseOf (.segFromBytes (headerWith 0xCF 0xDE ++ [0x61, 0x62, 0x63])) .reset =
      some (segmentResponse (parsed 0xCFDE) [0x61, 0x62, 0x63] 23) := by decide
/-- V-X1, V-X2, V-X3 and STATUS 3 (R75). -/
theorem test_refusals :
    refusal? (exec .reservedOp0 .reset) = some (.reservedOp 0) ∧ refusal? (exec .reservedOp7 .reset) = some (.reservedOp 7) ∧
    refusal? (exec (.csumCompute phUdp [] []) .reset) = some (.protocolNotTcp 17) ∧
    refusal? (exec (.status 3) .reset) = some .reservedStatus := by decide
/-- The words of S-6's stream added to ACC, one by one (R101). -/
theorem test_wire_words :
    (nextState? (exec (.tcphdrW0 12345 80) .reset)).map (fun t => (t.acc, t.pos)) = some (0x3089, 4) ∧
    (nextState? (exec (.tcphdrW3 5 0 synOnly 64240) .reset)).map (fun t => (t.acc, t.pos)) = some (0x14AF2, 4) ∧
    (nextState? (exec (.pseudoW0 0xC0000201) .reset)).map (fun t => (t.acc, t.pos)) = some (0xC201, 4) := by decide
theorem test_wire_words_32 :
    (nextState? (exec (.tcphdrW1 0xFFFF0001) .reset)).map (·.acc) = some 0x10000 ∧
    (nextState? (exec (.tcphdrW2 0xA0B0C0D0) .reset)).map (·.acc) = some 0x16180 ∧
    (nextState? (exec (.tcphdrW4 0x9444 0xBEEF) .reset)).map (·.acc) = some 0x15333 ∧
    (nextState? (exec (.tcphdrOpt 0x02 0x04 0x05 0xB4) .reset)).map (·.acc) = some 0x7B8 ∧
    (nextState? (exec (.pseudoW1 0xC6336407) .reset)).map (·.acc) = some 0x12A3A := by decide

/-! ### Witnesses: operands and states that meet the hypotheses of each statement -/

/-- Forty option bytes, the most a header holds, with the data offset 15 supplied (V-B8). -/
def fieldsLongest : Fields :=
  { fields with options := List.replicate 40 0x01, dataOffsetValid := true, dataOffset := 15 }

/-- A valid header (R22) and its built bytes (V-B4). -/
def header : TcpHeader := { parsed 0 with dataOffset := 6, options := [0x02, 0x04, 0x05, 0xB4] }

def built : Bytes := (headerWith 0x7C 0x88).set 12 0x60 ++ [0x02, 0x04, 0x05, 0xB4]

/-- A block with an odd count in its datapath. -/
def oddState : State := State.reset.feed [0x12, 0x34, 0x56]

theorem witness_encodings : (Instr.tcphdrW3 5 15 synOnly 64240).standsAt 24 = true ∧
    (Instr.tcphdrOpt 1 2 3 4).standsAt 68 = true ∧ (Instr.hdrParse [0x50]).standsAt 7 = true := by decide
theorem witness_wire_words_one_reading :
    decode 24 (.wire [0x5F, 0x02, 0xFA, 0xF0]) = .ok (.tcphdrW3 5 15 synOnly 64240) := by decide
theorem witness_step_runs :
    (∃ s : State, s.presented = [.command 4 Operands.blank] ∧ decode s.pos (.command 4 Operands.blank) = .ok (.hdrParse [])) ∧
    (∃ s : State, s.presented = [.wire [1]] ∧ decode s.pos (.wire [1]) = .error (.notAWord 1)) :=
  ⟨⟨State.reset.present (.command 4 Operands.blank), by decide⟩, ⟨State.reset.present (.wire [1]), by decide⟩⟩
theorem witness_idle : State.reset.presented = [] := rfl
/-- The two bounds of R74 at their largest values: 65535 bytes to sum, 20 + 65515 and 60 + 65475 to build. -/
theorem witness_admitted :
    ph.protocol = 6 ∧ (List.replicate 65535 (0 : Byte)).length + ([] : Bytes).length ≤ 65535 ∧
    4 * (5 + (fields.options.length + 3) / 4) + (List.replicate 65515 (0 : Byte)).length ≤ 65535 ∧
    4 * (5 + (fieldsLongest.options.length + 3) / 4) + (List.replicate 65475 (0 : Byte)).length ≤ 65535 := by
  simp only [List.length_replicate]; decide
theorem witness_outside :
    phUdp.protocol ≠ 6 ∧ 65535 < (List.replicate 65536 (0 : Byte)).length + ([] : Bytes).length ∧
    (5 + (fields.options.length + 3) / 4 ≤ 15 ∧
      (fields.dataOffsetValid = true → fields.dataOffset.toNat = 5 + (fields.options.length + 3) / 4) ∧
      65535 < 4 * (5 + (fields.options.length + 3) / 4) + (List.replicate 65516 (0 : Byte)).length) := by
  simp only [List.length_replicate]; decide
theorem witness_reserved_codes :
    (State.reset.present (.command 0 Operands.blank)).presented = [.command 0 Operands.blank] ∧
    (State.reset.present (.command 7 Operands.blank)).presented = [.command 7 Operands.blank] := by decide
theorem witness_fold : 0x10000 ≤ 0x10000 ∧ 0xFFFFFFFF < 2 ^ 32 ∧ 0 < 0xFFFF ∧ 65535 ∣ 0xFFFF := by decide
theorem witness_sum :
    [0x12, 0x34, 0x56, 0x78].length % 2 = 0 ∧ List.Perm [(0x1234 : Word16), 0x5678] [0x5678, 0x1234] := by decide
theorem witness_stream : (List.replicate 65534 (0 : Byte)).length + [(0xAB : Byte)].length ≤ 65535 := by
  simp only [List.length_replicate]; decide
theorem witness_csum_compute : ph.protocol = 6 ∧ (headerWith 0 0).length + [(0x61 : Byte)].length ≤ 65535 := by decide
theorem witness_csum_verify : ph.protocol = 6 ∧ h1.length + ([] : Bytes).length ≤ 65535 := by decide
theorem witness_checksum_ranges :
    ph.protocol = 6 ∧ Responds (.csumCompute ph (headerWith 0 0) []) .reset (csumResponse 0x9444) :=
  ⟨rfl, responds_of _ _ _ (by decide)⟩
/-- Eighteen header bytes, the fewest that reach the checksum field. -/
theorem witness_computed_checksums :
    phZero.protocol = 6 ∧ 18 ≤ (List.replicate 18 (0 : Byte)).length ∧ (List.replicate 18 (0 : Byte))[16]? = some 0 ∧
    (List.replicate 18 (0 : Byte))[17]? = some 0 ∧
    Responds (.csumCompute phZero (List.replicate 18 0) []) .reset (csumResponse 0xFFE7) :=
  ⟨rfl, by decide, by decide, by decide, responds_of _ _ _ (by decide)⟩
/-- The last bit of the header and of the payload of V-V2, and two changes of the same lengths: the port words exchanged as in V-V8,
which keeps the class, and V-V6's payload, which does not. -/
theorem witness_single_bit :
    ph.protocol = 6 ∧ Responds (.csumVerify ph (headerWith 0xCF 0xDE) [0x61, 0x62, 0x63]) .reset (validResponse true) ∧
    19 < (headerWith 0xCF 0xDE).length ∧ 2 < [(0x61 : Byte), 0x62, 0x63].length ∧ 7 < 8 ∧
    sum16 (stream ph ([0x00, 0x50, 0x30, 0x39] ++ (headerWith 0xCF 0xDE).drop 4) [0x61, 0x62, 0x63]) % 65535 =
      sum16 (stream ph (headerWith 0xCF 0xDE) [0x61, 0x62, 0x63]) % 65535 ∧
    sum16 (stream ph (headerWith 0xCF 0xDE) [0x61, 0x62, 0x62]) % 65535 ≠
      sum16 (stream ph (headerWith 0xCF 0xDE) [0x61, 0x62, 0x63]) % 65535 :=
  ⟨rfl, responds_of _ _ _ (by decide), by decide, by decide, by decide, by decide, by decide⟩
/-- V-V1, and the corner of V-V4 where the two formulations differ. -/
theorem witness_recomputation :
    Responds (.csumVerify ph h1 []) .reset (validResponse true) ∧
    Responds (.csumCompute ph (zeroChecksum h1) []) .reset (csumResponse 0x9444) ∧ ¬ be16 h1 16 = 0 ∧
    (let corner := (headerWith 0 0).set 14 0x8F |>.set 15 0x35
     Responds (.csumVerify ph corner []) .reset (validResponse true) ∧
     Responds (.csumCompute ph (zeroChecksum corner) []) .reset (csumResponse 0xFFFF) ∧
     be16 corner 16 = 0 ∧ fold (sum16 (stream ph (zeroChecksum corner) [])) = 0xFFFF) :=
  ⟨responds_of _ _ _ (by decide), responds_of _ _ _ (by decide), by decide, responds_of _ _ _ (by decide),
   responds_of _ _ _ (by decide), by decide, by decide⟩
theorem witness_concatenation : h1 ++ [0x61] = h1.take 10 ++ (h1.drop 10 ++ [0x61]) := by decide
theorem witness_ones_complement :
    0 < 0xFFFF ∧ (0xFFFF : Nat) ≤ 0xFFFF ∧ List.Perm [0x5678, 0x1234] (words16 [0x12, 0x34, 0x56, 0x78]) ∧
    (words16 [0x12, 0x34, 0x56, 0x78]).Perm (words16 [0x56, 0x78, 0x12, 0x34]) := by decide
theorem witness_serial : h1.length + [(0x61 : Byte)].length ≤ 65535 := by decide
/-- The shortest and the longest header, presented to the block after reset. -/
theorem witness_wire_stream :
    ph.protocol = 6 ∧ State.reset.acc = 0 ∧ State.reset.odd.valid = false ∧ State.reset.pos = 0 ∧
    (h1.length % 4 = 0 ∧ 20 ≤ h1.length ∧ h1.length ≤ 60 ∧
      ({ State.reset with presented := wireWords (phBytes ph 20 ++ h1) } : State).presented = wireWords (phBytes ph h1.length ++ h1)) ∧
    ((nibbleHeader 0xF0 60).length % 4 = 0 ∧ 20 ≤ (nibbleHeader 0xF0 60).length ∧ (nibbleHeader 0xF0 60).length ≤ 60) := by
  decide
theorem witness_wire_halves : State.reset.odd.valid = false ∧ oddState.odd.valid = true := by decide
theorem witness_wire_feed : (Instr.pseudoW2 6 20).isWireWord = true ∧ (Instr.pseudoW2 6 20).wf = true := by decide
theorem witness_accessors : 0 < 16 ∧ 15 < 16 := by decide
/-- No options with the longest payload admitted, and the longest header with its data offset supplied. -/
theorem witness_build :
    ph.protocol = 6 ∧
    (5 = 5 + (fields.options.length + 3) / 4 ∧ 5 ≤ 15 ∧ (fields.dataOffsetValid = true → fields.dataOffset.toNat = 5) ∧
      4 * 5 + (List.replicate 65515 (0 : Byte)).length ≤ 65535) ∧
    (15 = 5 + (fieldsLongest.options.length + 3) / 4 ∧ 15 ≤ 15 ∧
      (fieldsLongest.dataOffsetValid = true → fieldsLongest.dataOffset.toNat = 15) ∧
      4 * 15 + (List.replicate 65475 (0 : Byte)).length ≤ 65535) := by
  simp only [List.length_replicate]; decide
/-- Forty-one option bytes, and a supplied offset that differs. -/
theorem witness_build_offset :
    ph.protocol = 6 ∧ 16 = 5 + ((List.replicate 41 (0x61 : Byte)).length + 3) / 4 ∧ 15 < 16 ∧
    6 = 5 + (fieldsOptions.options.length + 3) / 4 ∧
    ({ fieldsOptions with dataOffsetValid := true, dataOffset := 5 } : Fields).dataOffset.toNat ≠ 6 := by decide
theorem witness_payload_reaches :
    Responds (.hdrBuild fields [] ph) .reset (outResponse h1) ∧
    Responds (.hdrBuild fields [0x61, 0x62, 0x63] ph) .reset (outResponse (headerWith 0xCF 0xDE)) :=
  ⟨responds_of _ _ _ (by decide), responds_of _ _ _ (by decide)⟩
/-- The declared lengths 16, 24 and 60 in buffers of 20, 20 and 59 bytes. -/
theorem witness_bad_lengths :
    (20 ≤ (nibbleHeader 0x40 20).length ∧ (nibbleHeader 0x40 20)[12]? = some 0x40 ∧ 4 * ((0x40 : Byte).toNat / 16) < 20) ∧
    (20 ≤ (nibbleHeader 0x60 20).length ∧ (nibbleHeader 0x60 20)[12]? = some 0x60 ∧
      (nibbleHeader 0x60 20).length < 4 * ((0x60 : Byte).toNat / 16)) ∧
    (20 ≤ (nibbleHeader 0xF0 59).length ∧ (nibbleHeader 0xF0 59)[12]? = some 0xF0 ∧
      (nibbleHeader 0xF0 59).length < 4 * ((0xF0 : Byte).toNat / 16)) := by decide
/-- A header of 20 bytes and one of 60, each exactly filling its buffer. -/
theorem witness_parse (b : Bytes) (d : Nat) (h : (b, d) = (h1, 5) ∨ (b, d) = (nibbleHeader 0xFF 60, 15)) :
    ∃ x : Nat → Nat, 20 ≤ b.length ∧ (∀ i, i < 20 → (b[i]?).map BitVec.toNat = some (x i)) ∧ d = x 12 / 16 ∧ 5 ≤ d ∧
      4 * d ≤ b.length := by
  refine ⟨fun i => (b.getD i 0).toNat, ?_⟩
  rcases h with h | h <;> (cases h; decide)
theorem witness_parse_tail : Responds (.hdrParse h1) .reset (headerResponse (parsed 0x9444)) :=
  responds_of _ _ _ (by decide)
theorem witness_wrong_checksum :
    phUdp ≠ ph ∧ ph.protocol = 6 ∧ h1.length + ([] : Bytes).length ≤ 65535 ∧ rawCsum ph (headerWith 0xDE 0xAD) [] ≠ 0 ∧
    Responds (.segFromBytes (h1 ++ [0x61])) .reset (segmentResponse (parsed 0x9444) [0x61] 21) :=
  ⟨by decide, rfl, by decide, by decide, responds_of _ _ _ (by decide)⟩
theorem witness_round_trip :
    header.valid = true ∧ ph.protocol = 6 ∧ 4 * header.dataOffset.toNat + [(0x61 : Byte)].length ≤ 65535 := by decide
theorem witness_parse_then_build :
    Responds (.hdrParse built) .reset (headerResponse { header with checksum := 0x7C88 }) ∧ header.reserved = 0 ∧
    ph.protocol = 6 ∧ 4 * header.dataOffset.toNat + ([] : Bytes).length ≤ 65535 :=
  ⟨responds_of _ _ _ (by decide), rfl, rfl, by decide⟩
theorem witness_offset_four :
    20 ≤ (nibbleHeader 0x40 100).length ∧ (nibbleHeader 0x40 100)[12]? = some 0x40 ∧ (0x40 : Byte).toNat / 16 = 4 := by
  decide
theorem witness_from_bytes :
    (20 ≤ h1.length ∧ h1[12]? = some 0x50 ∧ 5 = (0x50 : Byte).toNat / 16 ∧ 4 * 5 ≤ h1.length) ∧
    (20 ≤ (nibbleHeader 0xF0 60).length ∧ (nibbleHeader 0xF0 60)[12]? = some 0xF0 ∧ 15 = (0xF0 : Byte).toNat / 16 ∧
      4 * 15 ≤ (nibbleHeader 0xF0 60).length) := by decide
theorem witness_total_length :
    Responds (.segFromBytes (h1 ++ [0x61])) .reset (segmentResponse (parsed 0x9444) [0x61] 21) ∧
    Responds (.segToBytes fields [] ph) .reset (segmentBytesResponse h1 20) ∧ 20 ≤ 20 :=
  ⟨responds_of _ _ _ (by decide), responds_of _ _ _ (by decide), by decide⟩
theorem witness_operands_alone : (Instr.hdrParse h1).isOperation = true := rfl
theorem witness_errors :
    (Instr.hdrParse []).isOperation = true ∧ (Instr.csumVerify ph h1 []).isOperation = true ∧
    exec (.hdrParse []) oddState = .next (oddState.respond (.err .tooShort)) ∧
    (oddState.respond (.err .tooShort)).rsp = some (.err .tooShort) := ⟨rfl, rfl, rfl, rfl⟩
theorem witness_operations_idle :
    (Instr.status 2).isWireWord = false ∧ exec (.status 2) oddState = .next (oddState.respond (.err .invalidDataOffset)) :=
  ⟨rfl, rfl⟩
theorem witness_invariant :
    oddState.inv = true ∧ step (oddState.present (.status 1)) = .next (oddState.respond (.err .tooShort)) ∧
    (oddState.present (.status 1)).inv = true := ⟨by decide, rfl, by decide⟩
theorem witness_admitted_stream :
    let s := (State.reset.present (encode (.csumVerify ph h1 []))).present (encode (.hdrParse []))
    (∀ p ∈ s.presented, p.admitted = true) ∧ 2 ≤ s.presented.length ∧ 0 < 2 ∧
    s.presented[2 - 1]? = some (.command 4 { Operands.blank with b := [] }) := by decide
theorem witness_exchange :
    phZero.protocol = 6 ∧ Responds (.csumVerify phZero [0xFF, 0xF7] []) .reset (validResponse true) :=
  ⟨rfl, responds_of _ _ _ (by decide)⟩

end Sys2Proof.Tests
end

section
/-! The six operations answer by their operands alone (10_state.md R10). -/

namespace Sys2Proof.Machine

/-- R74 for OP 3 and 5, as a condition on the operands. -/
theorem buildRefusal_eq_none (f : Fields) (pl : Bytes) (ph : PseudoHeader) :
    buildRefusal f pl ph = none ↔ ph.protocol = 6 ∧ buildFits f pl = true := by
  rw [buildRefusal, refusalOf_eq_none, isTcp_iff]

/-! ### Each operation with a pseudo-header outside its admitted domain -/

theorem exec_csumCompute_refused {ph : PseudoHeader} {hb pl : Bytes} {r : Refusal}
    (h : checksumRefusal ph hb pl = some r) (s : State) : exec (.csumCompute ph hb pl) s = .refused r := by
  simp only [exec, execCsumCompute, h]

theorem exec_csumVerify_refused {ph : PseudoHeader} {hb pl : Bytes} {r : Refusal}
    (h : checksumRefusal ph hb pl = some r) (s : State) : exec (.csumVerify ph hb pl) s = .refused r := by
  simp only [exec, execCsumVerify, h]

theorem exec_hdrBuild_refused {f : Fields} {pl : Bytes} {ph : PseudoHeader} {r : Refusal}
    (h : buildRefusal f pl ph = some r) (s : State) : exec (.hdrBuild f pl ph) s = .refused r := by
  simp only [exec, execHdrBuild, h]

theorem exec_segToBytes_refused {f : Fields} {pl : Bytes} {ph : PseudoHeader} {r : Refusal}
    (h : buildRefusal f pl ph = some r) (s : State) : exec (.segToBytes f pl ph) s = .refused r := by
  simp only [exec, execSegToBytes, h]

/-- The response, or the refusal, of an operation is chosen before the state is looked at: the quantifier over states
stands inside the choice. -/
theorem exec_operation_uniform (i : Instr) (hop : i.isOperation = true) :
    (∃ r, ∀ s, exec i s = .next (s.respond r)) ∨ (∃ r, ∀ s, exec i s = .refused r) := by
  cases i with
  | csumCompute ph hb pl =>
    cases hr : checksumRefusal ph hb pl with
    | none =>
      obtain ⟨hp, hl⟩ := (checksumRefusal_eq_none ph hb pl).1 hr
      exact .inl ⟨_, fun s => exec_csumCompute ph hb pl s hp hl⟩
    | some r => exact .inr ⟨r, exec_csumCompute_refused hr⟩
  | csumVerify ph hb pl =>
    cases hr : checksumRefusal ph hb pl with
    | none =>
      obtain ⟨hp, hl⟩ := (checksumRefusal_eq_none ph hb pl).1 hr
      exact .inl ⟨_, fun s => exec_csumVerify ph hb pl s hp hl⟩
    | some r => exact .inr ⟨r, exec_csumVerify_refused hr⟩
  | hdrBuild f pl ph =>
    cases hr : buildRefusal f pl ph with
    | none =>
      obtain ⟨hp, hf⟩ := (buildRefusal_eq_none f pl ph).1 hr
      exact .inl ⟨_, fun s => exec_hdrBuild f pl ph s hp hf⟩
    | some r => exact .inr ⟨r, exec_hdrBuild_refused hr⟩
  | hdrParse b => exact .inl ⟨_, exec_hdrParse b⟩
  | segToBytes f pl ph =>
    cases hr : buildRefusal f pl ph with
    | none =>
      obtain ⟨hp, hf⟩ := (buildRefusal_eq_none f pl ph).1 hr
      exact .inl ⟨_, fun s => exec_segToBytes f pl ph s hp hf⟩
    | some r => exact .inr ⟨r, exec_segToBytes_refused hr⟩
  | segFromBytes b => exact .inl ⟨_, exec_segFromBytes b⟩
  | _ => cases hop

/-- Settles O49: the one response, or the one refusal, an operation gives in every state (R10), taken at the two states. -/
theorem responsesDependOnTheOperandsAlone : Obligations.ResponsesDependOnTheOperandsAlone := by
  intro i s s' hop
  obtain ⟨r, hr⟩ | ⟨r, hr⟩ := exec_operation_uniform i hop
  · exact .inl ⟨r, s.respond r, s'.respond r, hr s, hr s', s.respond_rsp r, s'.respond_rsp r⟩
  · exact .inr ⟨r, hr s, hr s'⟩

end Sys2Proof.Machine
end

section
/-! FOLD and one's-complement addition (40_checksum.md R93, R94, R100). -/

namespace Sys2Proof.Machine

theorem fold_of_small {x : Nat} (h : x < 0x10000) : fold x = x := foldPasses_small x x h

theorem fold_of_large {x : Nat} (h : 0x10000 ≤ x) : fold x = fold (x % 0x10000 + x / 0x10000) := by
  have hlt := pass_lt x h
  calc fold x = foldPasses (x + 1) x := foldPasses_enough _ _ _ (by omega) (by omega)
    _ = foldPasses x (x % 0x10000 + x / 0x10000) := foldPasses_large x x h
    _ = fold (x % 0x10000 + x / 0x10000) := foldPasses_enough _ _ _ (by omega) (by omega)

theorem fold_le (x : Nat) : fold x ≤ 0xFFFF := by
  induction x using Nat.strong_induction_on with
  | _ x ih =>
    by_cases h : 0x10000 ≤ x
    · rw [fold_of_large h]
      exact ih _ (pass_lt x h)
    · rw [fold_of_small (by omega)]
      omega

/-- What holds of a value and is kept by one pass holds of the folded value. -/
theorem fold_keeps {p : Nat → Prop} (pass : ∀ x, p x → p (x % 0x10000 + x / 0x10000)) (x : Nat) (hx : p x) :
    p (fold x) := by
  induction x using Nat.strong_induction_on with
  | _ x ih =>
    by_cases h : 0x10000 ≤ x
    · rw [fold_of_large h]
      exact ih _ (pass_lt x h) (pass x hx)
    · rwa [fold_of_small (by omega)]

theorem fold_mod (x : Nat) : fold x % 65535 = x % 65535 :=
  fold_keeps (p := fun y => y % 65535 = x % 65535) (fun y hy => (pass_mod y).trans hy) x rfl

theorem fold_pos {x : Nat} (h : 0 < x) : 0 < fold x := fold_keeps pass_pos x h

@[simp] theorem fold_zero : fold 0 = 0 := rfl

/-- R94: a nonzero folded value is the representative of its class modulo 65535 in 1 to 65535. -/
theorem fold_closed_form {x : Nat} (h : 0 < x) : fold x = (x - 1) % 65535 + 1 := by
  have hle := fold_le x
  have hmod := fold_mod x
  have hpos := fold_pos h
  omega

theorem fold_eq_zero_iff (x : Nat) : fold x = 0 ↔ x = 0 := by
  refine ⟨fun h => ?_, fun h => h ▸ fold_zero⟩
  by_contra hx
  exact (fold_pos (Nat.pos_of_ne_zero hx)).ne' h

theorem fold_eq_max_iff (x : Nat) : fold x = 0xFFFF ↔ 0 < x ∧ 65535 ∣ x := by
  rcases Nat.eq_zero_or_pos x with rfl | hx
  · simp
  · have := fold_closed_form hx
    omega

/-- FOLD depends only on the class modulo 65535 and on whether the value is zero. -/
theorem fold_congr {x y : Nat} (hmod : x % 65535 = y % 65535) (hzero : x = 0 ↔ y = 0) : fold x = fold y := by
  rcases Nat.eq_zero_or_pos x with rfl | hx
  · rw [hzero.1 rfl]
  · have hy : 0 < y := by omega
    rw [fold_closed_form hx, fold_closed_form hy]
    omega

theorem fold_fold_add (x y : Nat) : fold (fold x + y) = fold (x + y) := by
  have hmod := fold_mod x
  have hzero := fold_eq_zero_iff x
  exact fold_congr (by omega) (by omega)

theorem fold_add_fold (x y : Nat) : fold (x + fold y) = fold (x + y) := by
  rw [Nat.add_comm, fold_fold_add, Nat.add_comm]

/-- The two passes R93 counts for 32 bits: the first leaves at most 0x1FFFE, the second at most 0xFFFF. -/
theorem foldPasses_two {x : Nat} (h : x < 2 ^ 32) : foldPasses 2 x = fold x := by
  by_cases hx : 0x10000 ≤ x
  · rw [foldPasses_large 1 x hx, fold_of_large hx]
    have hle : x % 0x10000 + x / 0x10000 ≤ 0x1FFFE := by omega
    generalize x % 0x10000 + x / 0x10000 = y at hle ⊢
    by_cases hy : 0x10000 ≤ y
    · rw [foldPasses_large 0 y hy, fold_of_large hy, fold_of_small (by omega), foldPasses_small 0 _ (by omega)]
    · rw [foldPasses_small 1 y (by omega), fold_of_small (by omega)]
  · rw [foldPasses_small 2 x (by omega), fold_of_small (by omega)]

/-- Settles O12: one pass unrolled, and the bounds of a pass. -/
theorem foldRepeatsTheEndAroundCarry : Obligations.FoldRepeatsTheEndAroundCarry := by
  refine ⟨fun x => ?_, fold_le, pass_lt, fun x => foldPasses_two, rfl, rfl⟩
  split
  · exact fold_of_large ‹_›
  · exact fold_of_small (by omega)

/-- Settles O13: the closed form, and folding inside a sum. -/
theorem foldHasTheClosedForm : Obligations.FoldHasTheClosedForm :=
  ⟨fold_zero, fun _ => fold_closed_form, fold_mod, fold_eq_zero_iff, fold_eq_max_iff,
    fun a b => by rw [fold_fold_add, fold_add_fold]⟩

theorem oneAdd_comm (a b : Nat) : oneAdd a b = oneAdd b a := by rw [oneAdd, oneAdd, Nat.add_comm]

theorem oneAdd_assoc (a b c : Nat) : oneAdd (oneAdd a b) c = oneAdd a (oneAdd b c) := by
  simp only [oneAdd, fold_fold_add, fold_add_fold, Nat.add_assoc]

theorem oneAdd_zero_left {a : Nat} (h : a ≤ 0xFFFF) : oneAdd 0 a = a := by
  rw [oneAdd, Nat.zero_add, fold_of_small (by omega)]

theorem oneAdd_max_right {a : Nat} (h0 : 0 < a) (h : a ≤ 0xFFFF) : oneAdd a 0xFFFF = a := by
  rw [oneAdd, fold_closed_form (by omega)]
  omega

/-- Folding after every addition ends as folding the whole sum does (R100, R101). -/
theorem foldl_oneAdd (ws : List Nat) (a : Nat) (h : a ≤ 0xFFFF) : ws.foldl oneAdd a = fold (a + ws.sum) := by
  induction ws generalizing a with
  | nil => rw [List.foldl_nil, List.sum_nil, Nat.add_zero, fold_of_small (by omega)]
  | cons w ws ih =>
    calc (w :: ws).foldl oneAdd a = fold (fold (a + w) + ws.sum) := ih _ (fold_le _)
      _ = fold (a + (w :: ws).sum) := by rw [fold_fold_add, List.sum_cons, Nat.add_assoc]

end Sys2Proof.Machine
end

section
/-! SUM16 (40_checksum.md R92): the words it adds, its bound, and what a store into the sequence does to it. -/

namespace Sys2Proof.Machine

@[simp] theorem sum16_nil : sum16 [] = 0 := rfl
@[simp] theorem sum16_singleton (a : Byte) : sum16 [a] = 0 := rfl

@[simp] theorem words16_sum (bs : Bytes) : (words16 bs).sum = sum16 bs := by
  induction bs using List.twoStepInduction with
  | nil => rfl
  | singleton a => rfl
  | cons_cons a b rest ih _ => rw [words16, List.sum_cons, ih, sum16_cons_cons]

/-- The words at the even places. -/
theorem sum16_eq_sum_be16 (bs : Bytes) :
    sum16 bs = ((List.range (bs.length / 2)).map fun k => (be16 bs (2 * k)).toNat).sum := by
  induction bs using List.twoStepInduction with
  | nil => rfl
  | singleton a => simp
  | cons_cons a b rest ih _ =>
    have hlen : (a :: b :: rest).length / 2 = rest.length / 2 + 1 := by simp only [List.length_cons]; omega
    have hnext (k : Nat) : be16 (a :: b :: rest) (2 * (k + 1)) = be16 rest (2 * k) := by
      simp [be16, Nat.mul_add]
    rw [hlen, List.range_succ_eq_map, List.map_cons, List.map_map, List.sum_cons, sum16_cons_cons, ih]
    simp only [Function.comp_def, Nat.succ_eq_add_one, hnext]
    rw [be16_toNat]
    simp

theorem sum16_flatMap_put16 (ws : List Word16) : sum16 (ws.flatMap put16) = (ws.map BitVec.toNat).sum := by
  induction ws with
  | nil => rfl
  | cons w ws ih =>
    have hw : sum16 (put16 w) = w.toNat := congrArg BitVec.toNat (halves_append w)
    rw [List.flatMap_cons, sum16_append _ _ (by rw [put16_length]), ih, hw, List.map_cons, List.sum_cons]

theorem sum16_le (bs : Bytes) : sum16 bs ≤ bs.length / 2 * 0xFFFF := by
  induction bs using List.twoStepInduction with
  | nil => simp
  | singleton a => simp
  | cons_cons a b rest ih _ =>
    have ha := a.isLt
    have hb := b.isLt
    rw [sum16_cons_cons, List.length_cons, List.length_cons]
    omega

/-- What the byte at a place counts for in the sum: the high or the low half of its word. -/
def byteWeight (i : Nat) : Nat := if i % 2 = 0 then 256 else 1

@[simp] theorem byteWeight_add_two (i : Nat) : byteWeight (i + 2) = byteWeight i := by simp [byteWeight]

/-- A store of one byte trades that byte's share of the sum for the new one's. -/
theorem sum16_set (bs : Bytes) (heven : bs.length % 2 = 0) (i : Nat) (hi : i < bs.length) (v : Byte) :
    sum16 (bs.set i v) + byteWeight i * (byteAt bs i).toNat = sum16 bs + byteWeight i * v.toNat := by
  induction bs using List.twoStepInduction generalizing i with
  | nil => simp at hi
  | singleton a => simp at heven
  | cons_cons a b rest ih _ =>
    simp only [List.length_cons] at heven hi
    match i with
    | 0 => simp [byteWeight, sum16_cons_cons]; omega
    | 1 => simp [byteWeight, sum16_cons_cons]; omega
    | i + 2 =>
      have := ih (by omega) i (by omega)
      simp only [List.set_cons_succ, sum16_cons_cons, byteAt_cons_succ, byteWeight_add_two]
      omega

/-- A store of one word at a word boundary trades the old word for the new. -/
theorem sum16_memWrite16 (bs : Bytes) (heven : bs.length % 2 = 0) (off : Nat) (hoff : off % 2 = 0)
    (hlt : off + 1 < bs.length) (v : Word16) :
    sum16 (memWrite16 bs off v) + (be16 bs off).toNat = sum16 bs + v.toNat := by
  have hhigh := sum16_set bs heven off (by omega) (v.extractLsb' 8 8)
  have hlow := sum16_set (bs.set off (v.extractLsb' 8 8)) (by simpa using heven) (off + 1) (by simpa using hlt)
    (v.extractLsb' 0 8)
  have hold : byteAt (bs.set off (v.extractLsb' 8 8)) (off + 1) = byteAt bs (off + 1) := by
    simp [byteAt]
  have hv : v.toNat = (v.extractLsb' 8 8).toNat * 256 + (v.extractLsb' 0 8).toNat := by
    rw [← append_toNat]
    exact congrArg BitVec.toNat (halves_append v).symm
  rw [hold] at hlow
  simp only [byteWeight, hoff, show (off + 1) % 2 = 1 by omega, if_true, Nat.one_ne_zero, if_false] at hhigh hlow
  rw [be16_toNat, memWrite16, hv]
  omega

end Sys2Proof.Machine
end

section
/-! The checksum input stream (40_checksum.md R90, R91): its parts, and where the bytes of header and payload stand in it. -/

namespace Sys2Proof.Machine

/-- The pad of R91 after a count of `n` bytes. -/
def parityPad (n : Nat) : Bytes := if n % 2 = 1 then [0x00] else []

/-- The pad goes by the parity of all the bytes before it. -/
theorem stream_eq_padded (ph : PseudoHeader) (hb pl : Bytes) :
    stream ph hb pl = (phBytes ph (hb.length + pl.length) ++ hb ++ pl) ++
      parityPad (phBytes ph (hb.length + pl.length) ++ hb ++ pl).length := by
  simp only [stream, parityPad]
  split <;> simp

/-- The pseudo-header is an even count of bytes, so the pad goes by header and payload alone. -/
theorem stream_eq_append (ph : PseudoHeader) (hb pl : Bytes) :
    stream ph hb pl =
      phBytes ph (hb.length + pl.length) ++ (hb ++ (pl ++ parityPad (hb.length + pl.length))) := by
  have hpar : (12 + (hb.length + pl.length)) % 2 = (hb.length + pl.length) % 2 := by omega
  rw [stream_eq_padded]
  simp only [parityPad, List.length_append, phBytes_length, hpar, List.append_assoc]

theorem stream_length_even (ph : PseudoHeader) (hb pl : Bytes) : (stream ph hb pl).length % 2 = 0 := by
  rw [stream_length]
  omega

/-- One byte of a 32-bit value, as a number. -/
theorem extractByte_eq {w : Nat} (v : BitVec w) (k : Nat) : v.extractLsb' k 8 = BitVec.ofNat 8 (v.toNat / 2 ^ k) := by
  rw [← Nat.shiftRight_eq_div_pow]
  rfl

theorem put32_eq (v : Word32) :
    put32 v = [BitVec.ofNat 8 (v.toNat / 2 ^ 24), BitVec.ofNat 8 (v.toNat / 2 ^ 16),
      BitVec.ofNat 8 (v.toNat / 2 ^ 8), BitVec.ofNat 8 v.toNat] := by
  simp only [put32, extractByte_eq, Nat.pow_zero, Nat.div_one]

theorem put16_ofNat {n : Nat} (h : n ≤ 65535) :
    put16 (BitVec.ofNat 16 n) = [BitVec.ofNat 8 (n / 256), BitVec.ofNat 8 n] := by
  have hn : (BitVec.ofNat 16 n).toNat = n := by rw [BitVec.toNat_ofNat]; omega
  simp only [put16, extractByte_eq, hn, Nat.pow_zero, Nat.div_one, Nat.reducePow]

/-- Settles O15: the pseudo-header's bytes as numbers, and the length of the stream. -/
theorem streamIsPseudoHeaderHeaderPayloadPad : Obligations.StreamIsPseudoHeaderHeaderPayloadPad := by
  intro ph hb pl hl
  have hlen := stream_length ph hb pl
  refine ⟨?_, by omega, by omega, by omega⟩
  rw [stream_eq_append, phBytes, put32_eq, put32_eq, put16_ofNat hl]
  simp [parityPad]

/-- The bound R92 derives, in the sum's own words. -/
theorem sum16_stream_le {ph : PseudoHeader} {hb pl : Bytes} (h : hb.length + pl.length ≤ 65535) :
    sum16 (stream ph hb pl) ≤ 32774 * 0xFFFF := by
  have hlen := stream_length ph hb pl
  exact (sum16_le _).trans (Nat.mul_le_mul_right _ (by omega))

/-- Settles O14: the words added, in any order, and their number. -/
theorem sumIsTheSumOfTheWords : Obligations.SumIsTheSumOfTheWords := by
  refine ⟨fun bs _ => sum16_eq_sum_be16 bs, fun ws ws' hperm => ?_, fun ph hb pl hl => ?_⟩
  · rw [sum16_flatMap_put16, sum16_flatMap_put16, (hperm.map BitVec.toNat).sum_eq]
  · have := sum16_stream_le (ph := ph) hl
    exact ⟨this, by omega⟩

/-- The sum of the stream, part by part: the pseudo-header's words and those of the rest. -/
theorem sum16_stream (ph : PseudoHeader) (hb pl : Bytes) :
    sum16 (stream ph hb pl) =
      sum16 (put32 ph.src) + sum16 (put32 ph.dst) + ph.protocol.toNat +
        sum16 (put16 (BitVec.ofNat 16 (hb.length + pl.length))) +
        sum16 (hb ++ (pl ++ parityPad (hb.length + pl.length))) := by
  rw [stream_eq_append, sum16_append _ _ (by rw [phBytes_length]), phBytes, sum16_append _ _ (by simp),
    sum16_append _ _ (by simp), sum16_append _ _ (by simp), sum16_cons_cons]
  simp

/-- The protocol number 6 alone makes the sum of an admitted stream positive. -/
theorem sum16_stream_pos {ph : PseudoHeader} (h : ph.protocol = 6) (hb pl : Bytes) : 0 < sum16 (stream ph hb pl) := by
  have hp : ph.protocol.toNat = 6 := by rw [h]; rfl
  rw [sum16_stream, hp]
  omega

/-- A byte stored in the header is stored twelve places further in the stream. -/
theorem stream_set_header (ph : PseudoHeader) (hb pl : Bytes) (i : Nat) (hi : i < hb.length) (v : Byte) :
    stream ph (hb.set i v) pl = (stream ph hb pl).set (12 + i) v := by
  rw [stream_eq_append, stream_eq_append, List.length_set, List.set_append_right _ _ (by rw [phBytes_length]; omega),
    phBytes_length, Nat.add_sub_cancel_left, List.set_append_left _ _ hi]

/-- A byte stored in the payload is stored after pseudo-header and header in the stream. -/
theorem stream_set_payload (ph : PseudoHeader) (hb pl : Bytes) (i : Nat) (hi : i < pl.length) (v : Byte) :
    stream ph hb (pl.set i v) = (stream ph hb pl).set (12 + hb.length + i) v := by
  rw [stream_eq_append, stream_eq_append, List.length_set, List.set_append_right _ _ (by rw [phBytes_length]; omega),
    phBytes_length, Nat.add_assoc, Nat.add_sub_cancel_left, List.set_append_right _ _ (by omega),
    Nat.add_sub_cancel_left, List.set_append_left _ _ hi]

theorem stream_memWrite16 (ph : PseudoHeader) (hb pl : Bytes) (off : Nat) (h : off + 1 < hb.length) (v : Word16) :
    stream ph (memWrite16 hb off v) pl = memWrite16 (stream ph hb pl) (12 + off) v := by
  rw [memWrite16, stream_set_header _ _ _ _ (by simpa using h), stream_set_header _ _ _ _ (by omega), memWrite16,
    Nat.add_assoc]

theorem byteAt_stream_header (ph : PseudoHeader) (hb pl : Bytes) (i : Nat) (hi : i < hb.length) :
    byteAt (stream ph hb pl) (12 + i) = byteAt hb i := by
  rw [stream_eq_append, byteAt_append_right _ _ _ (by rw [phBytes_length]; omega), phBytes_length,
    Nat.add_sub_cancel_left, byteAt_append_left _ _ _ hi]

theorem byteAt_stream_payload (ph : PseudoHeader) (hb pl : Bytes) (i : Nat) (hi : i < pl.length) :
    byteAt (stream ph hb pl) (12 + hb.length + i) = byteAt pl i := by
  rw [stream_eq_append, byteAt_append_right _ _ _ (by rw [phBytes_length]; omega), phBytes_length, Nat.add_assoc,
    Nat.add_sub_cancel_left, byteAt_append_right _ _ _ (by omega), Nat.add_sub_cancel_left,
    byteAt_append_left _ _ _ hi]

/-- A word stored in the header trades the old word for the new in the sum of the stream. -/
theorem sum16_stream_memWrite16 (ph : PseudoHeader) (hb pl : Bytes) (off : Nat) (hoff : off % 2 = 0)
    (hlt : off + 1 < hb.length) (v : Word16) :
    sum16 (stream ph (memWrite16 hb off v) pl) + (be16 hb off).toNat = sum16 (stream ph hb pl) + v.toNat := by
  have hlen := stream_length ph hb pl
  have hold : be16 (stream ph hb pl) (12 + off) = be16 hb off := by
    rw [be16, Nat.add_assoc, byteAt_stream_header _ _ _ _ (by omega), byteAt_stream_header _ _ _ _ hlt, be16]
  rw [stream_memWrite16 _ _ _ _ hlt, ← hold]
  exact sum16_memWrite16 _ (stream_length_even ph hb pl) _ (by omega) (by omega) v

end Sys2Proof.Machine
end

section
/-! The raw checksum and the two checksum operations (40_checksum.md R96 to R98, R102 to R105). -/

namespace Sys2Proof.Machine

theorem word_eq_zero_iff (c : Word16) : c = 0 ↔ c.toNat = 0 := BitVec.toNat_inj.symm

theorem word_eq_max_iff (c : Word16) : c = 0xFFFF ↔ c.toNat = 0xFFFF := BitVec.toNat_inj.symm

theorem rawCsum_toNat (ph : PseudoHeader) (hb pl : Bytes) :
    (rawCsum ph hb pl).toNat = 0xFFFF - fold (sum16 (stream ph hb pl)) := by
  rw [rawCsum, cpl16, BitVec.toNat_ofNat]
  omega

theorem rawCsum_eq_zero_iff_fold (ph : PseudoHeader) (hb pl : Bytes) :
    rawCsum ph hb pl = 0 ↔ fold (sum16 (stream ph hb pl)) = 0xFFFF := by
  have hval := rawCsum_toNat ph hb pl
  have hle := fold_le (sum16 (stream ph hb pl))
  rw [word_eq_zero_iff, hval]
  omega

theorem verifies_iff_rawCsum (ph : PseudoHeader) (hb pl : Bytes) :
    verifies ph hb pl = true ↔ rawCsum ph hb pl = 0 := beq_iff_eq

section Admitted

variable {ph : PseudoHeader} (hp : ph.protocol = 6) (hb pl : Bytes)
include hp

theorem rawCsum_eq_zero_iff_dvd : rawCsum ph hb pl = 0 ↔ 65535 ∣ sum16 (stream ph hb pl) := by
  rw [rawCsum_eq_zero_iff_fold, fold_eq_max_iff]
  exact and_iff_right (sum16_stream_pos hp hb pl)

theorem verifies_iff_dvd : verifies ph hb pl = true ↔ 65535 ∣ sum16 (stream ph hb pl) := by
  rw [verifies_iff_rawCsum, rawCsum_eq_zero_iff_dvd hp]

theorem rawCsum_le : (rawCsum ph hb pl).toNat ≤ 0xFFFE := by
  have hval := rawCsum_toNat ph hb pl
  have hpos := fold_pos (sum16_stream_pos hp hb pl)
  omega

/-- With the substitution the result is the representative in 1 to 65535 of the sum's negative modulo 65535. -/
theorem csum_toNat : (csum ph hb pl).toNat = 65535 - sum16 (stream ph hb pl) % 65535 := by
  have hval := rawCsum_toNat ph hb pl
  have hpos := sum16_stream_pos hp hb pl
  have hfold := fold_closed_form hpos
  have hzero := rawCsum_eq_zero_iff_dvd hp hb pl
  rw [csum]
  split
  case isTrue h =>
    have hdvd := hzero.1 h
    show 65535 = _
    omega
  case isFalse h =>
    have hdvd := mt hzero.2 h
    omega

end Admitted

/-! ### The responses of the two operations -/

theorem csumResponse_inj {c c' : Word16} : csumResponse c = csumResponse c' ↔ c = c' := by simp [csumResponse]

theorem validResponse_inj {v v' : Bool} : validResponse v = validResponse v' ↔ v = v' := by simp [validResponse]

/-- An instruction that is refused responds nothing. -/
theorem not_responds_of_refused {i : Instr} {s : State} {x : Refusal} (h : exec i s = .refused x) (r : Response) :
    ¬ Responds i s r := by
  rintro ⟨t, ht, -⟩
  rw [h] at ht
  cases ht

/-- An instruction with the admission of R74 for OP 1 and 2 and one response `r` answers exactly on the admitted domain,
and there with `r`. -/
theorem responds_iff_admitted {i : Instr} {ph : PseudoHeader} {hb pl : Bytes} {s : State} {r : Response}
    (hanswered : ph.protocol = 6 → hb.length + pl.length ≤ 65535 → exec i s = .next (s.respond r))
    (hrefused : ∀ x, checksumRefusal ph hb pl = some x → exec i s = .refused x) (r' : Response) :
    Responds i s r' ↔ ph.protocol = 6 ∧ hb.length + pl.length ≤ 65535 ∧ r' = r := by
  cases hr : checksumRefusal ph hb pl with
  | none =>
    obtain ⟨hp, hl⟩ := (checksumRefusal_eq_none ph hb pl).1 hr
    rw [responds_iff _ _ _ _ (hanswered hp hl)]
    simp only [hp, hl, true_and]
  | some x =>
    refine iff_of_false (not_responds_of_refused (hrefused x hr) r') ?_
    rintro ⟨hp, hl, -⟩
    rw [(checksumRefusal_eq_none ph hb pl).2 ⟨hp, hl⟩] at hr
    cases hr

theorem responds_csumCompute_iff (ph : PseudoHeader) (hb pl : Bytes) (s : State) (c : Word16) :
    Responds (.csumCompute ph hb pl) s (csumResponse c) ↔
      ph.protocol = 6 ∧ hb.length + pl.length ≤ 65535 ∧ c = csum ph hb pl := by
  rw [responds_iff_admitted (exec_csumCompute ph hb pl s) (fun _ h => exec_csumCompute_refused h s), csumResponse_inj]

theorem responds_csumVerify_iff (ph : PseudoHeader) (hb pl : Bytes) (s : State) (v : Bool) :
    Responds (.csumVerify ph hb pl) s (validResponse v) ↔
      ph.protocol = 6 ∧ hb.length + pl.length ≤ 65535 ∧ v = verifies ph hb pl := by
  rw [responds_iff_admitted (exec_csumVerify ph hb pl s) (fun _ h => exec_csumVerify_refused h s), validResponse_inj]

/-- Settles O16: the answer is `csum`, and its value is that of the sum's residue. -/
theorem csumComputeResult : Obligations.CsumComputeResult := by
  intro ph hb pl s hp hl
  refine ⟨csum ph hb pl, (responds_csumCompute_iff ..).2 ⟨hp, hl, rfl⟩, rfl, BitVec.eq_of_toNat_eq ?_⟩
  rw [csum_toNat hp, BitVec.toNat_ofNat]
  omega

/-- Settles O17: the answer is `verifies`, in the three forms of its verdict. -/
theorem csumVerifyResult : Obligations.CsumVerifyResult := by
  intro ph hb pl s hp hl
  exact ⟨verifies ph hb pl, (responds_csumVerify_iff ..).2 ⟨hp, hl, rfl⟩, verifies_iff_rawCsum ph hb pl,
    (verifies_iff_rawCsum ph hb pl).trans (rawCsum_eq_zero_iff_fold ph hb pl), verifies_iff_dvd hp hb pl⟩

/-- Settles O18: the ranges follow from the value of the result and from the sum being positive. -/
theorem checksumRanges : Obligations.ChecksumRanges := by
  intro ph hb pl c s hp hresp
  obtain ⟨-, -, rfl⟩ := (responds_csumCompute_iff ..).1 hresp
  refine ⟨rawCsum_le hp hb pl, ?_, rawCsum_eq_zero_iff_dvd hp hb pl, ?_⟩
  · rw [csum_toNat hp]
    omega
  · rw [csum]
    split
    case isTrue h =>
      rw [h]
      decide
    case isFalse h => exact iff_of_true rfl h

/-! ### A checksum stored, and recomputed -/

theorem be16_eq_zero {bs : Bytes} {i : Nat} (h : bs[i]? = some 0) (h' : bs[i + 1]? = some 0) : be16 bs i = 0 := by
  simp [be16, byteAt, h, h']

/-- Settles O19: the stored result makes up what the sum lacks to a multiple of 65535. -/
theorem computedChecksumsVerify : Obligations.ComputedChecksumsVerify := by
  intro ph hb pl c s t hp hl h18 h16 h17 hresp
  obtain ⟨-, -, rfl⟩ := (responds_csumCompute_iff ..).1 hresp
  refine (responds_csumVerify_iff ..).2 ⟨hp, by rwa [memWrite16_length], Eq.symm ?_⟩
  have hsum := sum16_stream_memWrite16 ph hb pl 16 rfl h18 (csum ph hb pl)
  have hold : (be16 hb 16).toNat = 0 := by rw [be16_eq_zero h16 h17]; rfl
  rw [csum_toNat hp, hold] at hsum
  rw [verifies_iff_dvd hp]
  omega

theorem zeroChecksum_length (hb : Bytes) : (zeroChecksum hb).length = hb.length := memWrite16_length hb 16 0

/-- The sum of a segment is that over its zeroed checksum field and the stored checksum. -/
theorem sum16_stream_zeroChecksum (ph : PseudoHeader) (hb pl : Bytes) (h : 18 ≤ hb.length) :
    sum16 (stream ph hb pl) = sum16 (stream ph (zeroChecksum hb) pl) + (be16 hb 16).toNat :=
  (sum16_stream_memWrite16 ph hb pl 16 rfl h 0).symm

/-- VERIFY.RECOMPUTE on its domain (R79). -/
theorem verifyRecompute_of_admitted {ph : PseudoHeader} {hb pl : Bytes} (hp : ph.protocol = 6)
    (hl : hb.length + pl.length ≤ 65535) (h : 18 ≤ hb.length) :
    verifyRecompute ph hb pl = some (csum ph (zeroChecksum hb) pl == be16 hb 16) := by
  have hr := (checksumRefusal_eq_none ph (zeroChecksum hb) pl).2 ⟨hp, by rwa [zeroChecksum_length]⟩
  simp only [verifyRecompute, hr, h, if_true]

theorem verifyRecompute_defined_iff (ph : PseudoHeader) (hb pl : Bytes) :
    verifyRecompute ph hb pl ≠ none ↔ ph.protocol = 6 ∧ hb.length + pl.length ≤ 65535 ∧ 18 ≤ hb.length := by
  have hr := checksumRefusal_eq_none ph (zeroChecksum hb) pl
  rw [zeroChecksum_length] at hr
  rw [← and_assoc, ← hr, verifyRecompute]
  cases checksumRefusal ph (zeroChecksum hb) pl <;> simp

/-- R105: the stored value and the recomputed one agree exactly when the segment verifies, but for the stored 0 where the
recomputed one is 0xFFFF, since the recomputed value is in 1 to 65535 and the stored one in 0 to 65535. -/
theorem verifies_iff_recomputed {ph : PseudoHeader} (hp : ph.protocol = 6) (hb pl : Bytes) (h : 18 ≤ hb.length) :
    verifies ph hb pl = true ↔
      csum ph (zeroChecksum hb) pl = be16 hb 16 ∨ (be16 hb 16 = 0 ∧ csum ph (zeroChecksum hb) pl = 0xFFFF) := by
  have hstored := (be16 hb 16).isLt
  rw [verifies_iff_dvd hp, sum16_stream_zeroChecksum ph hb pl h]
  rw [word_eq_zero_iff, word_eq_max_iff, ← BitVec.toNat_inj, csum_toNat hp]
  omega

/-- The recomputed value is 0xFFFF exactly when the other words fold to 0xFFFF. -/
theorem csum_eq_max_iff_fold {ph : PseudoHeader} (hp : ph.protocol = 6) (hb pl : Bytes) :
    csum ph hb pl = 0xFFFF ↔ fold (sum16 (stream ph hb pl)) = 0xFFFF := by
  rw [← rawCsum_eq_zero_iff_fold, rawCsum_eq_zero_iff_dvd hp, word_eq_max_iff, csum_toNat hp]
  omega

/-- Settles O21: the two formulations and their one corner. -/
theorem verifyAgainstRecomputation : Obligations.VerifyAgainstRecomputation := by
  refine ⟨fun ph hb pl v c s t hp hl h18 hv hc => ?_, verifyRecompute_defined_iff⟩
  obtain ⟨-, -, rfl⟩ := (responds_csumVerify_iff ..).1 hv
  obtain ⟨-, -, rfl⟩ := (responds_csumCompute_iff ..).1 hc
  rw [verifies_iff_recomputed hp hb pl h18, ← csum_eq_max_iff_fold hp]
  refine ⟨fun hcorner => ?_, fun hcorner => ?_, ?_⟩
  · exact or_iff_left hcorner
  · exact ⟨.inr hcorner, hcorner.2⟩
  · rw [verifyRecompute_of_admitted hp hl h18]
    rfl

/-! ### A bit flipped, and any change of the bytes -/

/-- A flipped bit that was clear adds its value. -/
theorem toNat_flip_of_clear (b : Byte) {k : Nat} (hk : k < 8) (h : b.getLsbD k = false) :
    (b ^^^ BitVec.twoPow 8 k).toNat = b.toNat + 2 ^ k := by
  have hand : b &&& BitVec.twoPow 8 k = 0#8 := by simp [BitVec.and_twoPow, h]
  have hxor : b ^^^ BitVec.twoPow 8 k = b + BitVec.twoPow 8 k := by
    rw [BitVec.add_eq_or_of_and_eq_zero _ _ hand]
    apply BitVec.eq_of_getLsbD_eq
    intro i _
    rw [BitVec.getLsbD_xor, BitVec.getLsbD_or, BitVec.getLsbD_twoPow]
    by_cases hik : k = i
    · subst hik
      simp [h]
    · simp [hik]
  rw [hxor, BitVec.toNat_add_of_and_eq_zero hand, BitVec.toNat_twoPow_of_lt hk]

/-- A flipped bit adds its value or takes it away. -/
theorem toNat_flip (b : Byte) {k : Nat} (hk : k < 8) :
    (b ^^^ BitVec.twoPow 8 k).toNat = b.toNat + 2 ^ k ∨ b.toNat = (b ^^^ BitVec.twoPow 8 k).toNat + 2 ^ k := by
  cases h : b.getLsbD k with
  | false => exact .inl (toNat_flip_of_clear b hk h)
  | true =>
    have hclear : (b ^^^ BitVec.twoPow 8 k).getLsbD k = false := by simp [h, hk]
    have hback := toNat_flip_of_clear _ hk hclear
    rw [BitVec.xor_assoc, BitVec.xor_self, BitVec.xor_zero] at hback
    exact .inr hback

theorem flipBit_eq_set (bs : Bytes) (i k : Nat) : flipBit bs i k = bs.set i (byteAt bs i ^^^ BitVec.twoPow 8 k) := by
  rw [flipBit, List.modify_eq_set, byteAt, List.getD_eq_getElem?_getD]
  rfl

/-- A bit counts at most 2 ^ 15 in the sum, so a flipped one moves the sum out of its class modulo 65535 (R103). -/
theorem sum16_flip_mod_ne (bs : Bytes) (heven : bs.length % 2 = 0) {i k : Nat} (hi : i < bs.length) (hk : k < 8) :
    sum16 (flipBit bs i k) % 65535 ≠ sum16 bs % 65535 := by
  have hset := sum16_set bs heven i hi (byteAt bs i ^^^ BitVec.twoPow 8 k)
  have hlo : 0 < 2 ^ k := Nat.two_pow_pos k
  have hhi : 2 ^ k ≤ 2 ^ 7 := Nat.pow_le_pow_right (by decide) (by omega)
  have hbit := toNat_flip (byteAt bs i) hk
  rw [flipBit_eq_set]
  generalize 2 ^ k = d at *
  unfold byteWeight at hset
  split at hset <;> omega

@[simp] theorem flipBit_length (bs : Bytes) (i k : Nat) : (flipBit bs i k).length = bs.length := List.length_modify ..

theorem stream_flip_header (ph : PseudoHeader) (hb pl : Bytes) {i : Nat} (hi : i < hb.length) (k : Nat) :
    stream ph (flipBit hb i k) pl = flipBit (stream ph hb pl) (12 + i) k := by
  rw [flipBit_eq_set, flipBit_eq_set, stream_set_header _ _ _ _ hi, byteAt_stream_header _ _ _ _ hi]

theorem stream_flip_payload (ph : PseudoHeader) (hb pl : Bytes) {i : Nat} (hi : i < pl.length) (k : Nat) :
    stream ph hb (flipBit pl i k) = flipBit (stream ph hb pl) (12 + hb.length + i) k := by
  rw [flipBit_eq_set, flipBit_eq_set, stream_set_payload _ _ _ _ hi, byteAt_stream_payload _ _ _ _ hi]

/-- Beside a segment that verifies, another verifies exactly when its sum is in the same class modulo 65535. -/
theorem verifies_iff_same_class {ph : PseudoHeader} (hp : ph.protocol = 6) {hb pl : Bytes}
    (hv : verifies ph hb pl = true) (hb' pl' : Bytes) :
    verifies ph hb' pl' = true ↔ sum16 (stream ph hb' pl') % 65535 = sum16 (stream ph hb pl) % 65535 := by
  rw [verifies_iff_dvd hp] at hv ⊢
  omega

/-- Settles O20: a flipped bit moves the sum out of its class, and the class decides. -/
theorem singleBitFlipsAreDetected : Obligations.SingleBitFlipsAreDetected := by
  intro ph hb pl s hp hl hresp
  obtain ⟨-, -, hv⟩ := (responds_csumVerify_iff ..).1 hresp
  have heven := stream_length_even ph hb pl
  have hlen := stream_length ph hb pl
  refine ⟨fun i k t hi hk => ?_, fun i k t hi hk => ?_, fun hb' pl' t hhb hpl => ?_⟩
  · have hne := mt (verifies_iff_same_class hp hv.symm (flipBit hb i k) pl).1
      (by rw [stream_flip_header _ _ _ hi]; exact sum16_flip_mod_ne _ heven (by omega) hk)
    exact (responds_csumVerify_iff ..).2 ⟨hp, by rwa [flipBit_length], (Bool.eq_false_iff.2 hne).symm⟩
  · have hne := mt (verifies_iff_same_class hp hv.symm hb (flipBit pl i k)).1
      (by rw [stream_flip_payload _ _ _ hi]; exact sum16_flip_mod_ne _ heven (by omega) hk)
    exact (responds_csumVerify_iff ..).2 ⟨hp, by rwa [flipBit_length], (Bool.eq_false_iff.2 hne).symm⟩
  · exact ⟨verifies ph hb' pl', (responds_csumVerify_iff ..).2 ⟨hp, by omega, rfl⟩,
      verifies_iff_same_class hp hv.symm hb' pl'⟩

/-! ### Operands the two operations cannot tell apart -/

/-- The operands reach the two operations through the admission and the raw checksum alone (R99). -/
theorem exec_csum_congr {ph ph' : PseudoHeader} {hb pl hb' pl' : Bytes}
    (hr : checksumRefusal ph hb pl = checksumRefusal ph' hb' pl') (hc : rawCsum ph hb pl = rawCsum ph' hb' pl')
    (s : State) :
    exec (.csumCompute ph hb pl) s = exec (.csumCompute ph' hb' pl') s ∧
    exec (.csumVerify ph hb pl) s = exec (.csumVerify ph' hb' pl') s := by
  simp only [exec, execCsumCompute, execCsumVerify, hr, csum, verifies, hc, and_self]

/-- Header and payload may as well be all payload. -/
theorem stream_eq_of_append (ph : PseudoHeader) (hb pl : Bytes) : stream ph hb pl = stream ph [] (hb ++ pl) := by
  simp [stream_eq_append]

theorem checksumRefusal_eq_of_append (ph : PseudoHeader) (hb pl : Bytes) :
    checksumRefusal ph hb pl = checksumRefusal ph [] (hb ++ pl) := by
  simp [checksumRefusal, checksumFits]

/-- Settles O22: the admission and the stream are those of the concatenation. -/
theorem onlyTheConcatenationMatters : Obligations.OnlyTheConcatenationMatters := by
  intro ph hb pl hb' pl' s happ
  apply exec_csum_congr
  · rw [checksumRefusal_eq_of_append, happ, ← checksumRefusal_eq_of_append]
  · rw [rawCsum, stream_eq_of_append, happ, ← stream_eq_of_append, rawCsum]

/-- The two addresses are summands of the sum. -/
theorem sum16_stream_exchange (ph : PseudoHeader) (hb pl : Bytes) :
    sum16 (stream { ph with src := ph.dst, dst := ph.src } hb pl) = sum16 (stream ph hb pl) := by
  rw [sum16_stream, sum16_stream, Nat.add_comm (sum16 (put32 ph.dst))]

theorem checksumRefusal_exchange (ph : PseudoHeader) (hb pl : Bytes) :
    checksumRefusal { ph with src := ph.dst, dst := ph.src } hb pl = checksumRefusal ph hb pl := rfl

/-- Settles O23: the laws of the addition, and the folded sum as the sum of the words. -/
theorem onesComplementAddition : Obligations.OnesComplementAddition := by
  refine ⟨oneAdd_comm, oneAdd_assoc, fun a => oneAdd_zero_left, fun a => oneAdd_max_right,
    oneAdd_zero_left le_rfl, fun bs ws _ hperm => ?_, fun bs bs' _ _ hperm => ?_,
    fun ph hb pl s => exec_csum_congr (checksumRefusal_exchange ph hb pl) ?_ s⟩
  · rw [foldl_oneAdd ws 0 (Nat.zero_le _), Nat.zero_add, hperm.sum_eq, words16_sum]
  · rw [← words16_sum, hperm.sum_eq, words16_sum]
  · rw [rawCsum, sum16_stream_exchange, rawCsum]

end Sys2Proof.Machine
end

section
/-! The reference serial datapath (40_checksum.md R101): what feeding a sequence and ending leaves in ACC. -/

namespace Sys2Proof.Machine

theorem setWidth_append (a b : Byte) :
    (a ++ b : Word16).setWidth 32 = BitVec.ofNat 32 (a.toNat * 256 + b.toNat) := by
  rw [← append_toNat, BitVec.ofNat_toNat]

theorem State.finish_of_not_valid {s : State} (h : s.odd.valid = false) : s.finish = s := by simp [State.finish, h]

theorem State.finish_odd_valid (s : State) : s.finish.odd.valid = false := by
  unfold State.finish
  split
  · rfl
  · exact Bool.eq_false_iff.2 ‹_›

/-- From a word boundary, two bytes complete one word. -/
theorem State.feed_pair {s : State} (h : s.odd.valid = false) (a b : Byte) :
    ((s.feedByte a).feedByte b).acc = s.acc + BitVec.ofNat 32 (a.toNat * 256 + b.toNat) := by
  rw [State.feedByte_of_not_valid s a h, State.feedByte_of_valid _ b rfl, setWidth_append]

/-- From a word boundary, feeding a sequence and ending adds the words of the sequence with its pad to ACC. -/
theorem State.finish_feed_acc (bs : Bytes) (s : State) (h : s.odd.valid = false) :
    (s.feed bs).finish.acc = s.acc + BitVec.ofNat 32 (sum16 (bs ++ parityPad bs.length)) := by
  induction bs using List.twoStepInduction generalizing s with
  | nil => simp [State.finish_of_not_valid h, parityPad]
  | singleton a =>
    rw [State.feed_cons, State.feed_nil, State.feedByte_of_not_valid s a h]
    simp [State.finish, parityPad, setWidth_append, sum16_cons_cons]
  | cons_cons a b rest ih _ =>
    have hpad : parityPad (a :: b :: rest).length = parityPad rest.length := by simp [parityPad, Nat.add_assoc]
    have heven : ((s.feedByte a).feedByte b).odd.valid = false := by simp [h]
    rw [State.feed_cons, State.feed_cons, ih _ heven, State.feed_pair h, hpad, List.cons_append, List.cons_append,
      sum16_cons_cons, BitVec.add_assoc, ← BitVec.ofNat_add]

/-- Settles O24: the sum of an admitted stream is below 2 ^ 32, so ACC holds all of it. -/
theorem serialDatapathComputesTheRawChecksum : Obligations.SerialDatapathComputesTheRawChecksum := by
  rintro ph hb pl s t hl rfl
  have hsum := sum16_stream_le (ph := ph) hl
  have hacc : (s.start.feed (phBytes ph (hb.length + pl.length) ++ hb ++ pl)).finish.acc.toNat =
      sum16 (stream ph hb pl) := by
    rw [State.finish_feed_acc _ _ s.start_odd_valid, ← stream_eq_padded, State.start_acc, zero_add,
      BitVec.toNat_ofNat]
    exact Nat.mod_eq_of_lt (by omega)
  obtain ⟨-, -, hpos⟩ := s.start.feed_frame (phBytes ph (hb.length + pl.length) ++ hb ++ pl)
  refine ⟨?_, ?_, hacc, State.finish_odd_valid _, ?_⟩
  · rw [State.datapathResult, hacc, rawCsum]
  · rw [hpos]
    simp [Nat.add_assoc]
  · rw [foldl_oneAdd _ _ (Nat.zero_le _), words16_sum, Nat.zero_add, rawCsum]

end Sys2Proof.Machine
end

section
/-! The bit-field accessors as numbers (41_header_codec.md R111 to R121). -/

namespace Sys2Proof.Machine

theorem getDoff_eq_extract (p : Word16) : getDoff p = p.extractLsb' 12 4 := by
  apply BitVec.eq_of_getLsbD_eq
  intro i hi
  rw [getDoff_getLsbD p i hi, BitVec.getLsbD_extractLsb']
  simp [hi]

theorem getRsv_eq_extract (p : Word16) : getRsv p = p.extractLsb' 8 4 := by
  apply BitVec.eq_of_getLsbD_eq
  intro i hi
  rw [getRsv_getLsbD p i hi, BitVec.getLsbD_extractLsb']
  simp [hi]

theorem getDoff_toNat (p : Word16) : (getDoff p).toNat = p.toNat / 4096 := by
  have hlt := p.isLt
  rw [getDoff_eq_extract, BitVec.extractLsb'_toNat, Nat.shiftRight_eq_div_pow]
  omega

theorem getRsv_toNat (p : Word16) : (getRsv p).toNat = p.toNat / 256 % 16 := by
  rw [getRsv_eq_extract, BitVec.extractLsb'_toNat, Nat.shiftRight_eq_div_pow]

/-- SET_DOFF writes bits 15 to 12 and keeps the others (R111). -/
theorem setDoff_getLsbD (p : Word16) (d : BitVec 4) (i : Nat) (hi : i < 16) :
    (setDoff p d).getLsbD i = if i < 12 then p.getLsbD i else d.getLsbD (i - 12) := by
  have hmask : ∀ i < 16, ((0x0FFF : Nat) : Word16).getLsbD i = decide (i < 12) := by decide
  rw [setDoff, BitVec.getLsbD_or, BitVec.getLsbD_and, hmask i hi, BitVec.getLsbD_shiftLeft, BitVec.getLsbD_setWidth]
  by_cases h : i < 12
  · simp [h]
  · simp [h, hi, show i - 12 < 16 by omega]

theorem getDoff_setDoff (p : Word16) (d : BitVec 4) : getDoff (setDoff p d) = d := by
  apply BitVec.eq_of_getLsbD_eq
  intro i hi
  rw [getDoff_getLsbD _ i hi, setDoff_getLsbD p d _ (by omega), if_neg (by omega), Nat.add_sub_cancel_left]

theorem setDoff_mod (p : Word16) (d : BitVec 4) : (setDoff p d).toNat % 4096 = p.toNat % 4096 := by
  have hlow : (setDoff p d).setWidth 12 = p.setWidth 12 := by
    apply BitVec.eq_of_getLsbD_eq
    intro i hi
    rw [BitVec.getLsbD_setWidth, BitVec.getLsbD_setWidth, setDoff_getLsbD p d i (by omega), if_pos hi]
  simpa using congrArg BitVec.toNat hlow

/-- CLR_RSV clears bits 11 to 8 and keeps the others (R112). -/
theorem clrRsv_getLsbD (p : Word16) (i : Nat) (hi : i < 16) :
    (clrRsv p).getLsbD i = if 8 ≤ i ∧ i < 12 then false else p.getLsbD i := by
  have hmask : ∀ i < 16, (0xF0FF : Word16).getLsbD i = !decide (8 ≤ i ∧ i < 12) := by decide
  rw [clrRsv, BitVec.getLsbD_and, hmask i hi]
  by_cases h : 8 ≤ i ∧ i < 12 <;> simp [h]

theorem setFlag_getLsbD {mask : Word16} {k : Nat} (hmask : mask = BitVec.twoPow 16 k) (p : Word16) (b : Bool) {i : Nat}
    (hi : i < 16) : (setFlag mask p b).getLsbD i = if i = k then b else p.getLsbD i := by
  rw [hmask, setFlag_twoPow p b k i hi]

/-- Settles O29: the two fields bit by bit, and the eight flags as single-bit masks. -/
theorem accessorsReadAndWriteTheirBits : Obligations.AccessorsReadAndWriteTheirBits := by
  intro p d b
  obtain ⟨hcwr, hece, hurg, hack, hpsh, hrst, hsyn, hfin⟩ := masks_are_single_bits
  have hget := getFlags_eq p
  refine ⟨getDoff_toNat p, getRsv_toNat p, congrArg TcpFlags.cwr hget, congrArg TcpFlags.ece hget,
    congrArg TcpFlags.urg hget, congrArg TcpFlags.ack hget, congrArg TcpFlags.psh hget, congrArg TcpFlags.rst hget,
    congrArg TcpFlags.syn hget, congrArg TcpFlags.fin hget, getDoff_setDoff p d, setDoff_mod p d, fun i hi => ?_⟩
  exact ⟨clrRsv_getLsbD p i hi, setFlag_getLsbD hcwr p b hi, setFlag_getLsbD hece p b hi, setFlag_getLsbD hurg p b hi,
    setFlag_getLsbD hack p b hi, setFlag_getLsbD hpsh p b hi, setFlag_getLsbD hrst p b hi, setFlag_getLsbD hsyn p b hi,
    setFlag_getLsbD hfin p b hi⟩

end Sys2Proof.Machine

namespace Sys2Proof

open Machine

/-- Header byte 13 as a number (R61, R62). -/
def TcpFlags.octet (f : TcpFlags) : Nat :=
  128 * f.cwr.toNat + 64 * f.ece.toNat + 32 * f.urg.toNat + 16 * f.ack.toNat + 8 * f.psh.toNat + 4 * f.rst.toNat +
    2 * f.syn.toNat + f.fin.toNat

theorem TcpFlags.octet_lt (f : TcpFlags) : f.octet < 256 := by
  have hle (b : Bool) : b.toNat ≤ 1 := Bool.toNat_le b
  have := hle f.cwr; have := hle f.ece; have := hle f.urg; have := hle f.ack
  have := hle f.psh; have := hle f.rst; have := hle f.syn; have := hle f.fin
  rw [octet]
  omega

namespace Machine

theorem flagBit_toNat {k : Nat} (hk : k < 16) (b : Bool) : (flagBit (BitVec.twoPow 16 k) b).toNat = 2 ^ k * b.toNat := by
  cases b
  · simp [flagBit]
  · simp [flagBit, BitVec.toNat_twoPow_of_lt hk]

/-- A word joined with bits below its lowest one is the sum of the two. -/
theorem toNat_or_of_dvd (x y : Word16) (k : Nat) (hx : 2 ^ k ∣ x.toNat) (hy : y.toNat < 2 ^ k) :
    (x ||| y).toNat = x.toNat + y.toNat := by
  obtain ⟨a, ha⟩ := hx
  rw [BitVec.toNat_or, ha, Nat.two_pow_add_eq_or_of_lt hy]

theorem toNat_or_flagBit (x : Word16) {k : Nat} (hk : k < 16) (b : Bool) (hx : 2 ^ (k + 1) ∣ x.toNat) :
    (x ||| flagBit (BitVec.twoPow 16 k) b).toNat = x.toNat + 2 ^ k * b.toNat := by
  have hb : 2 ^ k * b.toNat < 2 ^ (k + 1) := by
    rw [Nat.pow_succ]
    exact Nat.mul_lt_mul_of_pos_left (by have := Bool.toNat_le b; omega) (Nat.two_pow_pos k)
  rw [toNat_or_of_dvd _ _ (k + 1) hx (by rwa [flagBit_toNat hk]), flagBit_toNat hk]

theorem flagBits_toNat (f : TcpFlags) : (flagBits f).toNat = f.octet := by
  obtain ⟨hcwr, hece, hurg, hack, hpsh, hrst, hsyn, hfin⟩ := masks_are_single_bits
  have h7 := flagBit_toNat (show 7 < 16 by decide) f.cwr
  have h6 := toNat_or_flagBit _ (show 6 < 16 by decide) f.ece (by rw [h7]; omega)
  have h5 := toNat_or_flagBit _ (show 5 < 16 by decide) f.urg (by rw [h6, h7]; omega)
  have h4 := toNat_or_flagBit _ (show 4 < 16 by decide) f.ack (by rw [h5, h6, h7]; omega)
  have h3 := toNat_or_flagBit _ (show 3 < 16 by decide) f.psh (by rw [h4, h5, h6, h7]; omega)
  have h2 := toNat_or_flagBit _ (show 2 < 16 by decide) f.rst (by rw [h3, h4, h5, h6, h7]; omega)
  have h1 := toNat_or_flagBit _ (show 1 < 16 by decide) f.syn (by rw [h2, h3, h4, h5, h6, h7]; omega)
  have h0 := toNat_or_flagBit _ (show 0 < 16 by decide) f.fin (by rw [h1, h2, h3, h4, h5, h6, h7]; omega)
  rw [flagBits, hcwr, hece, hurg, hack, hpsh, hrst, hsyn, hfin, h0, h1, h2, h3, h4, h5, h6, h7, TcpFlags.octet]
  omega

/-- PACK is the sum of its fields (R121). -/
theorem pack_toNat (d : BitVec 4) (f : TcpFlags) : (pack d f).toNat = 4096 * d.toNat + f.octet := by
  have hd : (d.setWidth 16 <<< 12).toNat = 4096 * d.toNat := by
    have hlt := d.isLt
    rw [BitVec.toNat_shiftLeft, BitVec.toNat_setWidth, Nat.shiftLeft_eq]
    omega
  have hf := f.octet_lt
  rw [pack, toNat_or_of_dvd _ _ 12 (by rw [hd]; omega) (by rw [flagBits_toNat]; omega), hd, flagBits_toNat]

/-- Settles O30: UNPACK reads the pair PACK writes, whose reserved bits are zero. -/
theorem unpackUndoesPack : Obligations.UnpackUndoesPack := by
  refine fun d f => ⟨pack_toNat d f, ?_, fun _ => rfl⟩
  rw [unpack, pack_eq, getDoff_pair, getRsv_pair, getFlags_pair]

end Machine

end Sys2Proof
end

section
/-! The header as bytes (30_encoding.md R60 to R63, R66): the layout of a TcpHeader value, which HDR.BUILD writes and
HDR.PARSE takes apart. -/

namespace Sys2Proof.Machine

/-- A 32-bit value is its four bytes, highest first. -/
theorem quarters_append (v : Word32) :
    ((v.extractLsb' 24 8 ++ v.extractLsb' 16 8 : Word16) ++ (v.extractLsb' 8 8 ++ v.extractLsb' 0 8 : Word16) : Word32) = v :=
  be32_of_put32 v

theorem put16_be16 (bs : Bytes) (i : Nat) : put16 (be16 bs i) = [byteAt bs i, byteAt bs (i + 1)] :=
  put16_of_append _ _

theorem put32_be32 (bs : Bytes) (i : Nat) :
    put32 (be32 bs i) = [byteAt bs i, byteAt bs (i + 1), byteAt bs (i + 2), byteAt bs (i + 3)] := by
  rw [be32, put32_of_append, put16_be16, put16_be16]
  rfl

/-- The first bytes of a sequence, read one by one. -/
theorem take_eq_map_byteAt (bs : Bytes) (n : Nat) (h : n ≤ bs.length) : bs.take n = (List.range n).map (byteAt bs) := by
  apply List.ext_getElem
  · simpa using h
  · intro i hi _
    have hlt : i < bs.length := by simp at hi; omega
    simp [byteAt, hlt]

/-- The first `b` bytes, cut at `a`. -/
theorem take_append_slice (bs : Bytes) {a b : Nat} (h : a ≤ b) : bs.take a ++ slice bs a b = bs.take b := by
  obtain ⟨k, rfl⟩ := Nat.exists_eq_add_of_le h
  rw [slice, Nat.add_sub_cancel_left, ← List.take_add]

theorem byteAt_of_prefix {xs bs : Bytes} (h : xs <+: bs) {i : Nat} (hi : i < xs.length) : byteAt bs i = byteAt xs i := by
  obtain ⟨rest, rfl⟩ := h
  exact byteAt_append_left _ _ _ hi

theorem be16_of_prefix {xs bs : Bytes} (h : xs <+: bs) {i : Nat} (hi : i + 1 < xs.length) : be16 bs i = be16 xs i := by
  rw [be16, byteAt_of_prefix h (by omega), byteAt_of_prefix h hi, be16]

/-- R137: the declared offset is the upper nibble of byte 12. -/
theorem declaredOffset_eq (b : Bytes) : declaredOffset b = (byteAt b 12).toNat / 16 := by
  have hbyte := (byteAt b 12).isLt
  rw [declaredOffset, BitVec.extractLsb'_toNat, Nat.shiftRight_eq_div_pow]
  omega

/-- The nibble HDR.PARSE asks first is the one it copies out. -/
theorem declaredOffset_eq_getDoff (b : Bytes) : declaredOffset b = (getDoff (rawPair b)).toNat := by
  have hlow := (byteAt b 13).isLt
  rw [declaredOffset_eq, getDoff_toNat, rawPair, be16_toNat]
  omega

end Sys2Proof.Machine

namespace Sys2Proof

open Machine

/-- The header part of a segment with the fields of `h`, its reserved bits and its checksum as they are (R60 to R63). -/
def TcpHeader.bytes (h : TcpHeader) : Bytes :=
  put16 h.sourcePort ++ put16 h.destinationPort ++ put32 h.sequenceNumber ++ put32 h.acknowledgmentNumber ++
  put16 (pairWithReserved h.dataOffset h.reserved h.flags) ++ put16 h.windowSize ++
  put16 h.checksum ++ put16 h.urgentPointer ++ h.options

namespace TcpHeader

theorem bytes_length (h : TcpHeader) : h.bytes.length = 20 + h.options.length := by
  simp only [bytes, List.length_append, put16_length, put32_length]

theorem rawPair_bytes (h : TcpHeader) (tail : Bytes) :
    rawPair (h.bytes ++ tail) = pairWithReserved h.dataOffset h.reserved h.flags := halves_append _

theorem declaredOffset_bytes (h : TcpHeader) (tail : Bytes) :
    declaredOffset (h.bytes ++ tail) = h.dataOffset.toNat := by
  rw [declaredOffset_eq_getDoff, rawPair_bytes, getDoff_pair]

theorem be16_checksum_bytes (h : TcpHeader) : be16 h.bytes 16 = h.checksum := halves_append _

/-- The store into the checksum field changes that field and nothing else. -/
theorem memWrite16_bytes (h : TcpHeader) (c : Word16) : memWrite16 h.bytes 16 c = bytes { h with checksum := c } := rfl

theorem zeroChecksum_bytes (h : TcpHeader) : zeroChecksum h.bytes = bytes { h with checksum := 0 } := rfl

/-- Two headers that differ at most in the checksum have the same bytes exactly when they do not differ there. -/
theorem bytes_withChecksum_eq_iff (h : TcpHeader) (c : Word16) :
    bytes { h with checksum := c } = h.bytes ↔ h.checksum = c := by
  constructor
  · intro heq
    rw [← be16_checksum_bytes h, ← heq, be16_checksum_bytes]
  · rintro rfl
    rfl

theorem parsedHeader_iff (h : TcpHeader) :
    parsedHeader h = true ↔ 5 ≤ h.dataOffset.toNat ∧ h.options.length = 4 * h.dataOffset.toNat - 20 := by
  simp [parsedHeader]

/-- R67, R138, R139: the fields are found again at the positions they are laid out at, whatever follows the options. -/
theorem extractHeader_bytes (h : TcpHeader) (hlen : h.options.length = 4 * h.dataOffset.toNat - 20) (tail : Bytes) :
    extractHeader (h.bytes ++ tail) = h := by
  have hsp : be16 (h.bytes ++ tail) 0 = h.sourcePort := halves_append _
  have hdp : be16 (h.bytes ++ tail) 2 = h.destinationPort := halves_append _
  have hseq : be32 (h.bytes ++ tail) 4 = h.sequenceNumber := quarters_append _
  have hack : be32 (h.bytes ++ tail) 8 = h.acknowledgmentNumber := quarters_append _
  have hwin : be16 (h.bytes ++ tail) 14 = h.windowSize := halves_append _
  have hcsum : be16 (h.bytes ++ tail) 16 = h.checksum := halves_append _
  have hurg : be16 (h.bytes ++ tail) 18 = h.urgentPointer := halves_append _
  have hopt : slice (h.bytes ++ tail) 20 (4 * h.dataOffset.toNat) = h.options := by
    have hdrop : (h.bytes ++ tail).drop 20 = h.options ++ tail := rfl
    rw [slice, hdrop, ← hlen, List.take_left]
  simp only [extractHeader, rawPair_bytes, getDoff_pair, getRsv_pair, getFlags_pair, hsp, hdp, hseq, hack, hwin, hcsum,
    hurg, hopt]

/-- R63, R66: a buffer that holds the header it declares begins with the layout of the fields found in it. -/
theorem bytes_extractHeader (b : Bytes) (h5 : 5 ≤ declaredOffset b) (hlen : 4 * declaredOffset b ≤ b.length) :
    (extractHeader b).bytes = b.take (4 * declaredOffset b) := by
  have hoff : 4 * (getDoff (rawPair b)).toNat = 4 * declaredOffset b := by rw [declaredOffset_eq_getDoff]
  simp only [extractHeader, bytes, pair_of_fields, hoff]
  rw [← take_append_slice b (show 20 ≤ 4 * declaredOffset b by omega), take_eq_map_byteAt b 20 (by omega)]
  simp only [rawPair, put16_be16, put32_be32]
  rfl

end TcpHeader

namespace Machine

/-- HDR.PARSE reads off the one header whose layout the buffer begins with (R135). -/
theorem parseHeader_eq_ok_iff (b : Bytes) (h : TcpHeader) :
    parseHeader b = .ok h ↔ parsedHeader h = true ∧ h.bytes <+: b := by
  rw [TcpHeader.parsedHeader_iff]
  constructor
  · intro hparse
    obtain ⟨-, he⟩ | ⟨-, -, he⟩ | ⟨-, hle, h5, he⟩ := parseHeader_cases b
    · simp [he] at hparse
    · simp [he] at hparse
    · obtain rfl : extractHeader b = h := by simpa [he] using hparse
      have hoff : (extractHeader b).dataOffset.toNat = declaredOffset b := (declaredOffset_eq_getDoff b).symm
      have hbytes := TcpHeader.bytes_extractHeader b h5 hle
      have hlen := congrArg List.length hbytes
      rw [TcpHeader.bytes_length, List.length_take] at hlen
      exact ⟨by omega, hbytes ▸ List.take_prefix _ _⟩
  · rintro ⟨⟨h5, hopt⟩, tail, rfl⟩
    have hoff := h.declaredOffset_bytes tail
    have hlen := h.bytes_length
    obtain ⟨hlt, -⟩ | ⟨-, hbad, -⟩ | ⟨-, -, -, he⟩ := parseHeader_cases (h.bytes ++ tail)
    · rw [List.length_append] at hlt
      omega
    · rw [List.length_append] at hbad
      omega
    · rw [he, h.extractHeader_bytes hopt]

end Machine

end Sys2Proof
end

section
/-! What the codec and segment operations answer, as conditions on their operands (41_header_codec.md R130, R135;
42_segment.md R151, R152). -/

namespace Sys2Proof.Machine

theorem headerResponse_inj {h h' : TcpHeader} : headerResponse h = headerResponse h' ↔ h = h' := by simp [headerResponse]

theorem outResponse_inj {out out' : Bytes} : outResponse out = outResponse out' ↔ out = out' := by simp [outResponse]

theorem headerResponse_eq_parseResponse_iff (h : TcpHeader) (x : Except ParseError TcpHeader) :
    headerResponse h = parseResponse x ↔ x = .ok h := by
  cases x with
  | ok h' => rw [parseResponse, headerResponse_inj, Except.ok.injEq, eq_comm]
  | error e => simp [parseResponse, headerResponse]

theorem outResponse_eq_buildResponse_iff (out : Bytes) (x : Except ParseError Bytes) :
    outResponse out = buildResponse x ↔ x = .ok out := by
  cases x with
  | ok out' => rw [buildResponse, outResponse_inj, Except.ok.injEq, eq_comm]
  | error e => simp [buildResponse, outResponse]

/-! The four operations pass an error of their function on, and answer none of their own. -/

theorem err_eq_parseResponse_iff (e : ParseError) (x : Except ParseError TcpHeader) :
    Response.err e = parseResponse x ↔ x = .error e := by
  cases x <;> simp [parseResponse, headerResponse, eq_comm]

theorem err_eq_fromBytesResponse_iff (e : ParseError) (b : Bytes) (x : Except ParseError TcpHeader) :
    Response.err e = fromBytesResponse b x ↔ x = .error e := by
  cases x <;> simp [fromBytesResponse, segmentResponse, eq_comm]

theorem err_eq_buildResponse_iff (e : ParseError) (x : Except ParseError Bytes) :
    Response.err e = buildResponse x ↔ x = .error e := by
  cases x <;> simp [buildResponse, outResponse, eq_comm]

theorem err_eq_toBytesResponse_iff (e : ParseError) (pl : Bytes) (x : Except ParseError Bytes) :
    Response.err e = toBytesResponse pl x ↔ x = .error e := by
  cases x <;> simp [toBytesResponse, segmentBytesResponse, eq_comm]

/-! ### HDR.PARSE and SEG.FROM_BYTES -/

theorem responds_hdrParse_iff (b : Bytes) (s : State) (h : TcpHeader) :
    Responds (.hdrParse b) s (headerResponse h) ↔ parseHeader b = .ok h := by
  rw [responds_iff _ _ _ _ (exec_hdrParse b s), headerResponse_eq_parseResponse_iff]

theorem responds_hdrParse_err_iff (b : Bytes) (s : State) (e : ParseError) :
    Responds (.hdrParse b) s (.err e) ↔ parseHeader b = .error e := by
  rw [responds_iff _ _ _ _ (exec_hdrParse b s), err_eq_parseResponse_iff]

theorem responds_segFromBytes_err_iff (b : Bytes) (s : State) (e : ParseError) :
    Responds (.segFromBytes b) s (.err e) ↔ parseHeader b = .error e := by
  rw [responds_iff _ _ _ _ (exec_segFromBytes b s), err_eq_fromBytesResponse_iff]

/-! ### HDR.BUILD and SEG.TO_BYTES -/

/-- An instruction that is refused when `refusal` says so and gives `r` otherwise answers `r` and nothing else. -/
theorem responds_iff_of_refusal {i : Instr} {s : State} {r : Response} {refusal : Option Refusal}
    (hanswered : refusal = none → exec i s = .next (s.respond r))
    (hrefused : ∀ x, refusal = some x → exec i s = .refused x) (r' : Response) :
    Responds i s r' ↔ refusal = none ∧ r' = r := by
  cases refusal with
  | none => simp only [responds_iff _ _ _ _ (hanswered rfl), true_and]
  | some x => exact iff_of_false (not_responds_of_refused (hrefused x rfl) r') (by simp)

/-- An instruction with the admission of R74 for OP 3 and 5 and one response `r` answers exactly on the admitted domain,
and there with `r`. -/
theorem responds_iff_build_admitted {i : Instr} {f : Fields} {pl : Bytes} {ph : PseudoHeader} {s : State} {r : Response}
    (hanswered : ph.protocol = 6 → buildFits f pl = true → exec i s = .next (s.respond r))
    (hrefused : ∀ x, buildRefusal f pl ph = some x → exec i s = .refused x) (r' : Response) :
    Responds i s r' ↔ ph.protocol = 6 ∧ buildFits f pl = true ∧ r' = r := by
  have hadmit := buildRefusal_eq_none f pl ph
  rw [responds_iff_of_refusal (fun h => hanswered (hadmit.1 h).1 (hadmit.1 h).2) hrefused, hadmit, and_assoc]

/-- R74 asks the length of a build only behind the data-offset check (R131). -/
theorem buildFits_eq (f : Fields) (pl : Bytes) :
    buildFits f pl = true ↔ (offsetConsistent f = true → 4 * derivedOffset f.options + pl.length ≤ 65535) := by
  rw [buildFits, Bool.or_eq_true, decide_eq_true_iff]
  cases offsetConsistent f <;> simp

theorem buildHeader_eq_ok_iff (f : Fields) (pl : Bytes) (ph : PseudoHeader) (out : Bytes) :
    buildHeader f pl ph = .ok out ↔
      offsetConsistent f = true ∧ out = memWrite16 (assemble f) 16 (csum ph (assemble f) pl) := by
  obtain ⟨hc, he⟩ | ⟨hc, he⟩ := buildHeader_cases f pl ph
  · simp [hc, he, eq_comm]
  · simp [hc, he]

theorem buildHeader_eq_error_iff (f : Fields) (pl : Bytes) (ph : PseudoHeader) :
    buildHeader f pl ph = .error .invalidDataOffset ↔ offsetConsistent f = false := by
  obtain ⟨hc, he⟩ | ⟨hc, he⟩ := buildHeader_cases f pl ph <;> simp [hc, he]

theorem responds_hdrBuild_iff (f : Fields) (pl : Bytes) (ph : PseudoHeader) (s : State) (out : Bytes) :
    Responds (.hdrBuild f pl ph) s (outResponse out) ↔
      ph.protocol = 6 ∧ offsetConsistent f = true ∧ 4 * derivedOffset f.options + pl.length ≤ 65535 ∧
      out = memWrite16 (assemble f) 16 (csum ph (assemble f) pl) := by
  rw [responds_iff_build_admitted (exec_hdrBuild f pl ph s) (fun _ h => exec_hdrBuild_refused h s),
    outResponse_eq_buildResponse_iff, buildHeader_eq_ok_iff, buildFits_eq]
  constructor
  · rintro ⟨hp, hfits, hc, rfl⟩
    exact ⟨hp, hc, hfits hc, rfl⟩
  · rintro ⟨hp, hc, hfits, rfl⟩
    exact ⟨hp, fun _ => hfits, hc, rfl⟩

/-- A build that fails the data-offset check is admitted whatever its payload (R74), and both operations end alike. -/
theorem fits_and_inconsistent_iff (f : Fields) (pl : Bytes) :
    buildFits f pl = true ∧ offsetConsistent f = false ↔ offsetConsistent f = false := by
  rw [and_iff_right_iff_imp, buildFits_eq]
  intro hc h
  rw [hc] at h
  cases h

theorem responds_hdrBuild_err_iff (f : Fields) (pl : Bytes) (ph : PseudoHeader) (s : State) :
    Responds (.hdrBuild f pl ph) s (.err .invalidDataOffset) ↔ ph.protocol = 6 ∧ offsetConsistent f = false := by
  rw [responds_iff_build_admitted (exec_hdrBuild f pl ph s) (fun _ h => exec_hdrBuild_refused h s),
    err_eq_buildResponse_iff, buildHeader_eq_error_iff, fits_and_inconsistent_iff]

theorem responds_segToBytes_err_iff (f : Fields) (pl : Bytes) (ph : PseudoHeader) (s : State) :
    Responds (.segToBytes f pl ph) s (.err .invalidDataOffset) ↔ ph.protocol = 6 ∧ offsetConsistent f = false := by
  rw [responds_iff_build_admitted (exec_segToBytes f pl ph s) (fun _ h => exec_segToBytes_refused h s),
    err_eq_toBytesResponse_iff, buildHeader_eq_error_iff, fits_and_inconsistent_iff]

end Sys2Proof.Machine
end

section
/-! The round trips of the header codec (41_header_codec.md R141, R142). -/

namespace Sys2Proof

open Machine

/-- The header HDR.BUILD assembles from its fields (R132, R133): the derived offset, zero reserved bits, a zero checksum
and padded options. -/
def Fields.assembled (f : Fields) : TcpHeader :=
  { sourcePort := f.sourcePort, destinationPort := f.destinationPort, sequenceNumber := f.sequenceNumber,
    acknowledgmentNumber := f.acknowledgmentNumber, dataOffset := BitVec.ofNat 4 (derivedOffset f.options), reserved := 0,
    flags := f.flags, windowSize := f.windowSize, checksum := 0, urgentPointer := f.urgentPointer,
    options := padOptions f.options }

theorem Fields.bytes_assembled (f : Fields) : f.assembled.bytes = assemble f := by
  have hzero : put16 0 = [0x00, 0x00] := by decide
  rw [assemble, pack_eq, ← hzero]
  rfl

theorem TcpHeader.valid_iff (h : TcpHeader) :
    h.valid = true ↔
      5 ≤ h.dataOffset.toNat ∧ h.reserved = 0 ∧ h.options.length = 4 * h.dataOffset.toNat - 20 := by
  simp [TcpHeader.valid, and_assoc]

section Valid

variable {h : TcpHeader} (hv : h.valid = true)
include hv

theorem TcpHeader.derivedOffset_of_valid : derivedOffset h.options = h.dataOffset.toNat := by
  obtain ⟨h5, -, hopt⟩ := h.valid_iff.1 hv
  rw [derivedOffset]
  omega

theorem TcpHeader.offsetConsistent_of_valid (supply : Bool) : offsetConsistent (h.toFields supply) = true := by
  have hd := TcpHeader.derivedOffset_of_valid hv
  have hlt := h.dataOffset.isLt
  exact (offsetConsistent_iff _).2 ⟨by rw [← derivedOffset, toFields, hd]; omega, fun _ => hd.symm⟩

/-- R132, R133: nothing of a valid header is lost in the assembly but its checksum. -/
theorem TcpHeader.assembled_of_valid (supply : Bool) : (h.toFields supply).assembled = { h with checksum := 0 } := by
  obtain ⟨h5, hrsv, hopt⟩ := h.valid_iff.1 hv
  have hd := TcpHeader.derivedOffset_of_valid hv
  simp only [Fields.assembled, toFields, padOptions_of_multiple h.options (by omega), hd, BitVec.ofNat_toNat,
    BitVec.setWidth_eq, ← hrsv]

theorem TcpHeader.bytes_length_of_valid : h.bytes.length = 4 * h.dataOffset.toNat := by
  obtain ⟨h5, -, hopt⟩ := h.valid_iff.1 hv
  rw [bytes_length]
  omega

end Valid

/-- A valid header is built as its own layout, the checksum field filled with what CSUM.COMPUTE answers (R130 to R134). -/
theorem Machine.responds_hdrBuild_of_valid {h : TcpHeader} (hv : h.valid = true) (supply : Bool) {pl : Bytes}
    {ph : PseudoHeader} (hp : ph.protocol = 6) (hl : 4 * h.dataOffset.toNat + pl.length ≤ 65535) (s t : State) :
    ∃ c, Responds (.hdrBuild (h.toFields supply) pl ph) s (outResponse (TcpHeader.bytes { h with checksum := c })) ∧
      Responds (.csumCompute ph (zeroChecksum h.bytes) pl) t (csumResponse c) := by
  have hasm : assemble (h.toFields supply) = zeroChecksum h.bytes := by
    rw [← Fields.bytes_assembled, TcpHeader.assembled_of_valid hv, TcpHeader.zeroChecksum_bytes]
  refine ⟨csum ph (zeroChecksum h.bytes) pl, (responds_hdrBuild_iff ..).2
    ⟨hp, TcpHeader.offsetConsistent_of_valid hv supply, ?_, ?_⟩, (responds_csumCompute_iff ..).2 ⟨hp, ?_, rfl⟩⟩
  · rwa [TcpHeader.toFields, TcpHeader.derivedOffset_of_valid hv]
  · rw [hasm, TcpHeader.zeroChecksum_bytes, TcpHeader.memWrite16_bytes]
  · rwa [zeroChecksum_length, TcpHeader.bytes_length_of_valid hv]

/-- Settles O40: the built header is the layout of the given one with another checksum, and HDR.PARSE reads layouts off. -/
theorem buildThenParseGivesTheHeaderBack : Obligations.BuildThenParseGivesTheHeaderBack := by
  intro h supply pl ph s t hv hp hl
  obtain ⟨c, hbuild, hcsum⟩ := responds_hdrBuild_of_valid hv supply hp hl s s
  obtain ⟨h5, -, hopt⟩ := h.valid_iff.1 hv
  exact ⟨_, c, hbuild, hcsum, (responds_hdrParse_iff ..).2
    ((parseHeader_eq_ok_iff ..).2 ⟨(TcpHeader.parsedHeader_iff _).2 ⟨h5, hopt⟩, List.prefix_rfl⟩)⟩

/-- Settles O41: the parsed header is valid and its layout is the header part of the buffer, and building changes that
layout in the checksum only. -/
theorem parseThenBuildGivesTheBytesBack : Obligations.ParseThenBuildGivesTheBytesBack := by
  intro b h supply pl ph s t hparse hrsv hp hl
  obtain ⟨hparsed, hprefix⟩ := (parseHeader_eq_ok_iff ..).1 ((responds_hdrParse_iff ..).1 hparse)
  obtain ⟨h5, hopt⟩ := h.parsedHeader_iff.1 hparsed
  have hv : h.valid = true := h.valid_iff.2 ⟨h5, hrsv, hopt⟩
  have hlen := TcpHeader.bytes_length_of_valid hv
  have htake : b.take (4 * h.dataOffset.toNat) = h.bytes := by rw [List.prefix_iff_eq_take.1 hprefix, hlen]
  have hstored : be16 b 16 = h.checksum := by rw [be16_of_prefix hprefix (by omega), h.be16_checksum_bytes]
  obtain ⟨c, hbuild, hcsum⟩ := responds_hdrBuild_of_valid hv supply hp hl t t
  rw [htake, hstored]
  exact ⟨_, c, hbuild, hcsum, (h.memWrite16_bytes c).symm, h.bytes_withChecksum_eq_iff c⟩

end Sys2Proof
end

section
/-! HDR.BUILD (41_header_codec.md R130 to R134): the data-offset check, the layout it writes, the checksum it stores. -/

namespace Sys2Proof.Machine

theorem put16_eq (v : Word16) : put16 v = [BitVec.ofNat 8 (v.toNat / 256), BitVec.ofNat 8 v.toNat] := by
  simp only [put16, extractByte_eq, Nat.pow_zero, Nat.div_one, Nat.reducePow]

/-- A store is read back high byte first. -/
theorem getElem?_memWrite16_self (bs : Bytes) (off : Nat) (v : Word16) (h : off + 1 < bs.length) :
    (memWrite16 bs off v)[off]? = some (BitVec.ofNat 8 (v.toNat / 256)) ∧
    (memWrite16 bs off v)[off + 1]? = some (BitVec.ofNat 8 v.toNat) := by
  rw [memWrite16, List.getElem?_set_ne (by omega), List.getElem?_set_self (by omega),
    List.getElem?_set_self (by simpa using h)]
  simp only [extractByte_eq, Nat.pow_zero, Nat.div_one, Nat.reducePow, and_self]

theorem getElem?_memWrite16_ne (bs : Bytes) (off : Nat) (v : Word16) {i : Nat} (h : i ≠ off) (h' : i ≠ off + 1) :
    (memWrite16 bs off v)[i]? = bs[i]? := by
  rw [memWrite16, List.getElem?_set_ne (by omega), List.getElem?_set_ne (by omega)]

/-- R131: the check fails exactly when the derived offset does not fit or a supplied one differs from it. -/
theorem offsetConsistent_eq_false_iff (f : Fields) :
    offsetConsistent f = false ↔
      15 < derivedOffset f.options ∨ (f.dataOffsetValid = true ∧ f.dataOffset.toNat ≠ derivedOffset f.options) := by
  rw [← Bool.not_eq_true, offsetConsistent_iff, ← derivedOffset, not_and_or, Nat.not_le, Classical.not_imp]

/-- Settles O32: both operations fail exactly when the data-offset check does. -/
theorem buildChecksTheDataOffset : Obligations.BuildChecksTheDataOffset := by
  rintro f pl ph s d rfl hp
  rw [responds_hdrBuild_err_iff, responds_segToBytes_err_iff, offsetConsistent_eq_false_iff, derivedOffset]
  simp only [hp, true_and, and_self]

theorem assemble_length (f : Fields) : (assemble f).length = 4 * derivedOffset f.options := by
  have hd : 5 ≤ derivedOffset f.options := by rw [derivedOffset]; omega
  have hpad := padOptions_length f.options
  rw [← Fields.bytes_assembled, TcpHeader.bytes_length, Fields.assembled, hpad]
  omega

/-- Settles O33: the assembled header is `assemble`, which takes the fields alone. -/
theorem buildStoresTheComputedChecksum : Obligations.BuildStoresTheComputedChecksum := by
  rintro f d rfl h15 hsupplied
  have hlen := assemble_length f
  have hcons := (offsetConsistent_iff f).2 ⟨h15, hsupplied⟩
  rw [← derivedOffset]
  refine ⟨assemble f, hlen, rfl, rfl, fun pl ph s hp hl => ?_⟩
  obtain ⟨h16, h17⟩ := getElem?_memWrite16_self (assemble f) 16 (csum ph (assemble f) pl)
    (by rw [hlen, derivedOffset]; omega)
  exact ⟨_, _, (responds_csumCompute_iff ..).2 ⟨hp, by rwa [hlen], rfl⟩,
    (responds_hdrBuild_iff ..).2 ⟨hp, hcons, hl, rfl⟩, by rw [memWrite16_length, hlen], h16, h17,
    fun i hi hi' => getElem?_memWrite16_ne _ _ _ hi hi'⟩

/-- Settles O34: payload and pseudo-header enter by the stored checksum only. -/
theorem payloadReachesOnlyTheChecksumBytes : Obligations.PayloadReachesOnlyTheChecksumBytes := by
  intro f pl pl' ph ph' s s' out out' hout hout'
  obtain ⟨-, -, -, rfl⟩ := (responds_hdrBuild_iff ..).1 hout
  obtain ⟨-, -, -, rfl⟩ := (responds_hdrBuild_iff ..).1 hout'
  refine ⟨by rw [memWrite16_length, memWrite16_length], fun i h16 h17 => ?_⟩
  rw [getElem?_memWrite16_ne _ _ _ h16 h17, getElem?_memWrite16_ne _ _ _ h16 h17]

/-! ### The layout in numbers -/

theorem put16_pack (d : BitVec 4) (f : TcpFlags) :
    put16 (pack d f) = [BitVec.ofNat 8 (16 * d.toNat), BitVec.ofNat 8 f.octet] := by
  have hf := f.octet_lt
  have hhigh : (4096 * d.toNat + f.octet) / 256 = 16 * d.toNat := by omega
  have hlow : BitVec.ofNat 8 (4096 * d.toNat + f.octet) = BitVec.ofNat 8 f.octet := by
    apply BitVec.eq_of_toNat_eq
    rw [BitVec.toNat_ofNat, BitVec.toNat_ofNat]
    omega
  rw [put16_eq, pack_toNat, hhigh, hlow]

/-- R132: the pad fills the last word of the options area. -/
theorem padOptions_eq (options : Bytes) :
    padOptions options = options ++ List.replicate ((4 - options.length % 4) % 4) 0x01 := by
  have hcount : 4 * (derivedOffset options - 5) - options.length = (4 - options.length % 4) % 4 := by
    rw [derivedOffset]
    omega
  rw [padOptions, hcount]

theorem csum_eq_ofNat {ph : PseudoHeader} (hp : ph.protocol = 6) (hb pl : Bytes) :
    csum ph hb pl = BitVec.ofNat 16 (65535 - sum16 (stream ph hb pl) % 65535) := by
  rw [← csum_toNat hp, BitVec.ofNat_toNat, BitVec.setWidth_eq]

/-- R133, R42: an assembled header with a consistent offset, byte by byte, `c` stored in its checksum field. -/
theorem memWrite16_assemble (f : Fields) (h15 : derivedOffset f.options ≤ 15) (c : Word16) :
    memWrite16 (assemble f) 16 c =
      [BitVec.ofNat 8 (f.sourcePort.toNat / 256), BitVec.ofNat 8 f.sourcePort.toNat,
       BitVec.ofNat 8 (f.destinationPort.toNat / 256), BitVec.ofNat 8 f.destinationPort.toNat,
       BitVec.ofNat 8 (f.sequenceNumber.toNat / 2 ^ 24), BitVec.ofNat 8 (f.sequenceNumber.toNat / 2 ^ 16),
       BitVec.ofNat 8 (f.sequenceNumber.toNat / 2 ^ 8), BitVec.ofNat 8 f.sequenceNumber.toNat,
       BitVec.ofNat 8 (f.acknowledgmentNumber.toNat / 2 ^ 24), BitVec.ofNat 8 (f.acknowledgmentNumber.toNat / 2 ^ 16),
       BitVec.ofNat 8 (f.acknowledgmentNumber.toNat / 2 ^ 8), BitVec.ofNat 8 f.acknowledgmentNumber.toNat,
       BitVec.ofNat 8 (16 * derivedOffset f.options), BitVec.ofNat 8 f.flags.octet,
       BitVec.ofNat 8 (f.windowSize.toNat / 256), BitVec.ofNat 8 f.windowSize.toNat,
       BitVec.ofNat 8 (c.toNat / 256), BitVec.ofNat 8 c.toNat,
       BitVec.ofNat 8 (f.urgentPointer.toNat / 256), BitVec.ofNat 8 f.urgentPointer.toNat] ++
      f.options ++ List.replicate ((4 - f.options.length % 4) % 4) 0x01 := by
  have hd : (BitVec.ofNat 4 (derivedOffset f.options)).toNat = derivedOffset f.options := by
    rw [BitVec.toNat_ofNat]
    omega
  rw [← Fields.bytes_assembled, TcpHeader.memWrite16_bytes, TcpHeader.bytes, Fields.assembled, ← pack_eq, put16_pack, hd,
    padOptions_eq]
  simp only [put16_eq, put32_eq]
  rfl

/-- Settles O31: the built header is the assembled one with the value of `csum` in its checksum field. -/
theorem buildWritesTheHeaderLayout : Obligations.BuildWritesTheHeaderLayout := by
  rintro f pl ph s d rfl hp h15 hsupplied hl layout c
  have hlayout (c : Word16) : layout c = memWrite16 (assemble f) 16 c := (memWrite16_assemble f h15 c).symm
  have hzero : layout 0 = assemble f := by
    rw [hlayout, ← Fields.bytes_assembled, TcpHeader.memWrite16_bytes]
    rfl
  have hc : c = csum ph (assemble f) pl := by rw [csum_eq_ofNat hp, ← hzero]
  rw [hlayout, hc]
  exact ⟨(responds_hdrBuild_iff ..).2 ⟨hp, (offsetConsistent_iff f).2 ⟨h15, hsupplied⟩, hl, rfl⟩,
    (memWrite16_length ..).trans (assemble_length f)⟩

end Sys2Proof.Machine
end

section
/-! HDR.PARSE (41_header_codec.md R135 to R139, R144, R145): its errors in order, the fields it copies out, its boundary. -/

namespace Sys2Proof.Machine

theorem parseHeader_tooShort_iff (b : Bytes) : parseHeader b = .error .tooShort ↔ b.length < 20 := by
  obtain ⟨hlt, he⟩ | ⟨hge, -, he⟩ | ⟨hge, -, -, he⟩ := parseHeader_cases b
  · simp [he, hlt]
  · simp [he, hge]
  · simp [he, hge]

theorem parseHeader_invalid_iff {b : Bytes} (h : 20 ≤ b.length) :
    parseHeader b = .error .invalidDataOffset ↔ b.length < 4 * declaredOffset b ∨ 4 * declaredOffset b < 20 := by
  obtain ⟨hlt, -⟩ | ⟨-, hbad, he⟩ | ⟨-, hle, h5, he⟩ := parseHeader_cases b
  · omega
  · simp only [he, true_iff]
    omega
  · simp only [he, reduceCtorEq, false_iff]
    omega

theorem byteAt_of_getElem? {b : Bytes} {i : Nat} {x : Byte} (h : b[i]? = some x) : byteAt b i = x := by
  simp [byteAt, h]

/-- R138: the reserved bits are the lower nibble of byte 12. -/
theorem reserved_toNat (b : Bytes) : (getRsv (rawPair b)).toNat = (byteAt b 12).toNat % 16 := by
  have hlow := (byteAt b 13).isLt
  rw [getRsv_toNat, rawPair, be16_toNat]
  omega

/-- Settles O35: the length is asked first, and TooShort is its error alone. -/
theorem shortBuffersAreTooShort : Obligations.ShortBuffersAreTooShort := by
  intro b s
  rw [responds_hdrParse_err_iff, responds_segFromBytes_err_iff, parseHeader_tooShort_iff]
  exact ⟨Iff.rfl, Iff.rfl⟩

/-- Settles O36: behind the length test, the two conditions of R137. -/
theorem badDeclaredLengthsAreInvalid : Obligations.BadDeclaredLengthsAreInvalid := by
  rintro b s x d h20 hx rfl
  rw [responds_hdrParse_err_iff, responds_segFromBytes_err_iff, parseHeader_invalid_iff h20, declaredOffset_eq,
    byteAt_of_getElem? hx]
  exact ⟨Iff.rfl, Iff.rfl⟩

/-- Settles O43: an offset of 4 is below the minimum, whatever the length of the buffer. -/
theorem dataOffsetFourIsInvalid : Obligations.DataOffsetFourIsInvalid := by
  intro b s x h20 hx h4
  obtain ⟨hparse, hfrom⟩ := badDeclaredLengthsAreInvalid b s x 4 h20 hx h4.symm
  exact ⟨hparse.1 (.inr (by decide)), hfrom.1 (.inr (by decide))⟩

/-- Settles O42: the three fixed buffers, evaluated. -/
theorem minimumLengthBoundary : Obligations.MinimumLengthBoundary := fun s =>
  ⟨(responds_hdrParse_iff _ s _).2 (by decide), (responds_hdrParse_err_iff _ s _).2 (by decide),
    (responds_hdrParse_err_iff _ s _).2 (by decide)⟩

/-- Settles O38: a buffer begins with the layout of the header parsed from it, and so does every longer one. -/
theorem parseIgnoresWhatFollows : Obligations.ParseIgnoresWhatFollows := by
  intro b tail h s t hparse
  obtain ⟨hparsed, hprefix⟩ := (parseHeader_eq_ok_iff ..).1 ((responds_hdrParse_iff ..).1 hparse)
  exact (responds_hdrParse_iff ..).2
    ((parseHeader_eq_ok_iff ..).2 ⟨hparsed, hprefix.trans (List.prefix_append b tail)⟩)

/-! ### The fields in numbers -/

theorem be32_toNat (bs : Bytes) (i : Nat) :
    (be32 bs i).toNat = 2 ^ 24 * (byteAt bs i).toNat + 2 ^ 16 * (byteAt bs (i + 1)).toNat +
      2 ^ 8 * (byteAt bs (i + 2)).toNat + (byteAt bs (i + 3)).toNat := by
  have hlow := (be16 bs (i + 2)).isLt
  rw [be32, BitVec.toNat_append, ← Nat.shiftLeft_add_eq_or_of_lt hlow, Nat.shiftLeft_eq, be16_toNat, be16_toNat,
    Nat.add_assoc i 2 1]
  omega

/-- The flags are the bits of the second byte of the pair (R61, R62). -/
theorem be16_getLsbD_low (bs : Bytes) (i : Nat) {k : Nat} (hk : k < 8) :
    (be16 bs i).getLsbD k = (byteAt bs (i + 1)).toNat.testBit k := by
  rw [be16, BitVec.getLsbD_append, if_pos hk, ← BitVec.testBit_toNat]

theorem getElem?_slice (bs : Bytes) (a b : Nat) {i : Nat} (hi : i < b - a) : (slice bs a b)[i]? = bs[a + i]? := by
  rw [slice, List.getElem?_take_of_lt hi, List.getElem?_drop]

theorem slice_length {bs : Bytes} {a b : Nat} (h : b ≤ bs.length) : (slice bs a b).length = b - a := by
  rw [slice, List.length_take, List.length_drop]
  omega

/-- Settles O37: the fields of `extractHeader`, each as the number its bytes assemble to. -/
theorem parseExtractsEveryField : Obligations.ParseExtractsEveryField := by
  rintro b s x d h20 hx rfl h5 hlen
  have hbyte (i : Nat) (hi : i < 20) : (byteAt b i).toNat = x i := by
    obtain ⟨y, hy, hval⟩ := Option.map_eq_some_iff.1 (hx i hi)
    rw [byteAt_of_getElem? hy, hval]
  have hword (i : Nat) (hi : i + 1 < 20) : (be16 b i).toNat = 256 * x i + x (i + 1) := by
    rw [be16_toNat, hbyte i (by omega), hbyte (i + 1) hi, Nat.mul_comm]
  have hlong (i : Nat) (hi : i + 3 < 20) : (be32 b i).toNat =
      2 ^ 24 * x i + 2 ^ 16 * x (i + 1) + 2 ^ 8 * x (i + 2) + x (i + 3) := by
    rw [be32_toNat, hbyte i (by omega), hbyte (i + 1) (by omega), hbyte (i + 2) (by omega), hbyte (i + 3) hi]
  have hd : declaredOffset b = x 12 / 16 := by rw [declaredOffset_eq, hbyte 12 (by decide)]
  have hdoff : (getDoff (rawPair b)).toNat = x 12 / 16 := by rw [← declaredOffset_eq_getDoff, hd]
  have hrsv : (getRsv (rawPair b)).toNat = x 12 % 16 := by rw [reserved_toNat, hbyte 12 (by decide)]
  have hok : parseHeader b = .ok (extractHeader b) := by
    obtain ⟨hlt, -⟩ | ⟨-, hbad, -⟩ | ⟨-, -, -, he⟩ := parseHeader_cases b
    · omega
    · omega
    · exact he
  refine ⟨extractHeader b, (responds_hdrParse_iff ..).2 hok, hword 0 (by decide), hword 2 (by decide), hlong 4 (by decide),
    hlong 8 (by decide), hdoff, hrsv, ?_, hword 14 (by decide), hword 16 (by decide), hword 18 (by decide), ?_, ?_⟩
  · rw [← hbyte 13 (by decide)]
    simp only [extractHeader, getFlags_eq, rawPair, be16_getLsbD_low b 12, Nat.reduceLT, Nat.reduceAdd]
  · rw [extractHeader, hdoff, slice_length hlen]
  · intro i hi
    rw [extractHeader, hdoff, getElem?_slice b _ _ hi]

end Sys2Proof.Machine
end

section
/-! The segment operations (42_segment.md R151 to R154): SEG.TO_BYTES is HDR.BUILD and the payload behind it, SEG.FROM_BYTES
is HDR.PARSE and the rest of the buffer, and each undoes the other. -/

namespace Sys2Proof

open Machine

/-- A header that fills its declared length is laid out in that many bytes. -/
theorem TcpHeader.bytes_length_of_parsed {h : TcpHeader} (hp : parsedHeader h = true) :
    h.bytes.length = 4 * h.dataOffset.toNat := by
  obtain ⟨h5, hopt⟩ := h.parsedHeader_iff.1 hp
  rw [bytes_length]
  omega

namespace Machine

theorem payloadOf_eq_drop (h : TcpHeader) (b : Bytes) : payloadOf h b = b.drop (4 * h.dataOffset.toNat) := by
  rw [payloadOf, slice, List.take_of_length_le (by rw [List.length_drop])]

theorem segmentResponse_eq_fromBytesResponse_iff (h : TcpHeader) (pl : Bytes) (n : Nat) (b : Bytes)
    (x : Except ParseError TcpHeader) :
    segmentResponse h pl n = fromBytesResponse b x ↔
      x = .ok h ∧ pl = b.drop (4 * h.dataOffset.toNat) ∧ n = b.length := by
  cases x with
  | ok h' =>
    simp only [fromBytesResponse, segmentResponse, payloadOf_eq_drop, Response.ok.injEq, Results.mk.injEq,
      Option.some.injEq, Except.ok.injEq, true_and]
    constructor <;> (rintro ⟨rfl, hrest⟩; exact ⟨rfl, hrest⟩)
  | error e => simp [fromBytesResponse, segmentResponse]

theorem segmentBytesResponse_eq_toBytesResponse_iff (out pl : Bytes) (n : Nat) (x : Except ParseError Bytes) :
    segmentBytesResponse out n = toBytesResponse pl x ↔
      ∃ hb, x = .ok hb ∧ out = hb ++ pl ∧ n = hb.length + pl.length := by
  cases x with
  | ok hb => simp [toBytesResponse, segmentBytesResponse]
  | error e => simp [toBytesResponse, segmentBytesResponse]

/-- R152: SEG.FROM_BYTES answers with HDR.PARSE's header, the rest of the buffer and its length. -/
theorem responds_segFromBytes_iff (b : Bytes) (s : State) (h : TcpHeader) (pl : Bytes) (n : Nat) :
    Responds (.segFromBytes b) s (segmentResponse h pl n) ↔
      Responds (.hdrParse b) s (headerResponse h) ∧ pl = b.drop (4 * h.dataOffset.toNat) ∧ n = b.length := by
  rw [responds_iff _ _ _ _ (exec_segFromBytes b s), segmentResponse_eq_fromBytesResponse_iff, responds_hdrParse_iff]

/-- SEG.FROM_BYTES cuts the buffer into the layout of the header it gives and the payload it gives. -/
theorem responds_segFromBytes_iff_layout (b : Bytes) (s : State) (h : TcpHeader) (pl : Bytes) (n : Nat) :
    Responds (.segFromBytes b) s (segmentResponse h pl n) ↔
      parsedHeader h = true ∧ b = h.bytes ++ pl ∧ n = b.length := by
  rw [responds_segFromBytes_iff, responds_hdrParse_iff, parseHeader_eq_ok_iff, and_assoc]
  refine and_congr_right fun hp => ?_
  rw [← TcpHeader.bytes_length_of_parsed hp, ← and_assoc]
  refine and_congr_left fun _ => ?_
  constructor
  · rintro ⟨⟨rest, rfl⟩, rfl⟩
    rw [List.drop_left]
  · rintro rfl
    exact ⟨List.prefix_append .., List.drop_left.symm⟩

/-- R151: SEG.TO_BYTES answers with HDR.BUILD's bytes, the payload behind them, and the sum of their lengths. -/
theorem responds_segToBytes_iff (f : Fields) (pl : Bytes) (ph : PseudoHeader) (s : State) (out : Bytes) (n : Nat) :
    Responds (.segToBytes f pl ph) s (segmentBytesResponse out n) ↔
      ∃ hb, Responds (.hdrBuild f pl ph) s (outResponse hb) ∧ out = hb ++ pl ∧ n = hb.length + pl.length := by
  simp only [responds_iff_build_admitted (exec_segToBytes f pl ph s) (fun _ h => exec_segToBytes_refused h s),
    responds_iff_build_admitted (exec_hdrBuild f pl ph s) (fun _ h => exec_hdrBuild_refused h s),
    segmentBytesResponse_eq_toBytesResponse_iff, outResponse_eq_buildResponse_iff, and_assoc, exists_and_left]

/-- HDR.BUILD writes the layout of a header that fills its declared length (R131 to R134). -/
theorem hdrBuild_writes_layout {f : Fields} {pl : Bytes} {ph : PseudoHeader} {s : State} {out : Bytes}
    (hbuild : Responds (.hdrBuild f pl ph) s (outResponse out)) : ∃ h, parsedHeader h = true ∧ h.bytes = out := by
  obtain ⟨-, hcons, -, rfl⟩ := (responds_hdrBuild_iff ..).1 hbuild
  obtain ⟨h15, -⟩ := (offsetConsistent_iff f).1 hcons
  have hd : (BitVec.ofNat 4 (derivedOffset f.options)).toNat = derivedOffset f.options := by
    rw [BitVec.toNat_ofNat, derivedOffset]
    omega
  have h5 : 5 ≤ derivedOffset f.options := Nat.le_add_right ..
  have hpad := padOptions_length f.options
  refine ⟨{ f.assembled with checksum := csum ph (assemble f) pl }, (TcpHeader.parsedHeader_iff _).2 ?_, ?_⟩
  · simp only [Fields.assembled, hd]
    omega
  · rw [← TcpHeader.memWrite16_bytes, Fields.bytes_assembled]

/-- Settles O47: the written bytes are the layout of the header with its checksum filled in, then the payload, which is how
SEG.FROM_BYTES cuts them; and a computed checksum stored in its field verifies (O19). -/
theorem segmentRoundTrip : Obligations.SegmentRoundTrip := by
  intro h supply pl ph s t u hv hp hl
  obtain ⟨c, hbuild, hcsum⟩ := responds_hdrBuild_of_valid hv supply hp hl s u
  obtain ⟨h5, -, hopt⟩ := h.valid_iff.1 hv
  have hparsed : parsedHeader { h with checksum := c } = true := (TcpHeader.parsedHeader_iff _).2 ⟨h5, hopt⟩
  have hlen : (TcpHeader.bytes { h with checksum := c }).length = 4 * h.dataOffset.toNat :=
    TcpHeader.bytes_length_of_parsed hparsed
  have hverify : Responds (.csumVerify ph (TcpHeader.bytes { h with checksum := c }) pl) u (validResponse true) := by
    have hzero : (zeroChecksum h.bytes).length = 4 * h.dataOffset.toNat := by
      rw [zeroChecksum_length, TcpHeader.bytes_length_of_valid hv]
    exact computedChecksumsVerify ph (zeroChecksum h.bytes) pl c u u hp (by rwa [hzero]) (by omega) rfl rfl hcsum
  refine ⟨_, c, (responds_segToBytes_iff ..).2 ⟨_, hbuild, rfl, by rw [hlen]⟩,
    (responds_segFromBytes_iff_layout ..).2 ⟨hparsed, rfl, by rw [List.length_append, hlen]⟩, ?_, ?_⟩
  · rwa [List.take_left' hlen]
  · rwa [List.take_left' hlen, List.drop_left' hlen]

/-- Settles O44: HDR.BUILD answers on this domain, and SEG.TO_BYTES follows it in its answer and in its errors. -/
theorem toBytesIsTheHeaderThenThePayload : Obligations.ToBytesIsTheHeaderThenThePayload := by
  constructor
  · rintro f pl ph s d rfl hp h15 hsupplied hl
    have hbuild := (responds_hdrBuild_iff f pl ph s _).2 ⟨hp, (offsetConsistent_iff f).2 ⟨h15, hsupplied⟩, hl, rfl⟩
    exact ⟨_, (memWrite16_length ..).trans (assemble_length f), hbuild,
      (responds_segToBytes_iff ..).2 ⟨_, hbuild, rfl, rfl⟩⟩
  · intro f pl ph s e
    rw [responds_iff_build_admitted (exec_hdrBuild f pl ph s) (fun _ h => exec_hdrBuild_refused h s),
      responds_iff_build_admitted (exec_segToBytes f pl ph s) (fun _ h => exec_segToBytes_refused h s),
      err_eq_buildResponse_iff, err_eq_toBytesResponse_iff]

/-- R137 to R139: a buffer that holds the header it declares is parsed. -/
theorem parseHeader_of_declared {b : Bytes} (h5 : 5 ≤ declaredOffset b) (hlen : 4 * declaredOffset b ≤ b.length) :
    parseHeader b = .ok (extractHeader b) := by
  obtain ⟨hlt, -⟩ | ⟨-, hbad, -⟩ | ⟨-, -, -, he⟩ := parseHeader_cases b
  · omega
  · omega
  · exact he

/-- Settles O45: HDR.PARSE answers on this domain, and SEG.FROM_BYTES follows it in its answer and in its errors. -/
theorem fromBytesIsTheHeaderAndTheRest : Obligations.FromBytesIsTheHeaderAndTheRest := by
  constructor
  · rintro b s x d - hx rfl h5 hlen
    have hd : declaredOffset b = x.toNat / 16 := by rw [declaredOffset_eq, byteAt_of_getElem? hx]
    have hoff : (extractHeader b).dataOffset.toNat = x.toNat / 16 := by
      rw [← hd, declaredOffset_eq_getDoff, extractHeader]
    rw [← hd] at h5 hlen
    have hparse := (responds_hdrParse_iff b s _).2 (parseHeader_of_declared h5 hlen)
    exact ⟨_, _, hoff, hparse, (responds_segFromBytes_iff ..).2 ⟨hparse, by rw [hoff], rfl⟩,
      (List.take_append_drop ..).symm, List.length_drop ..⟩
  · intro b s e
    rw [responds_hdrParse_err_iff, responds_segFromBytes_err_iff]

/-- The shortest header: no options, and zero wherever a field may be. -/
def minimalHeader : TcpHeader :=
  { sourcePort := 0, destinationPort := 0, sequenceNumber := 0, acknowledgmentNumber := 0, dataOffset := 5, reserved := 0,
    flags := getFlags 0, windowSize := 0, checksum := 0, urgentPointer := 0, options := [] }

theorem parsedHeader_minimalHeader : parsedHeader minimalHeader = true := by decide

/-- R66: the nibble a segment declares its header length with stands in byte 12. -/
theorem byte12_of_layout (h : TcpHeader) (pl : Bytes) :
    ∃ x : Byte, (h.bytes ++ pl)[12]? = some x ∧ x.toNat / 16 = h.dataOffset.toNat := by
  have hoff := h.declaredOffset_bytes pl
  have hlt : 12 < (h.bytes ++ pl).length := by
    rw [List.length_append, h.bytes_length]
    omega
  have hx := List.getElem?_eq_getElem hlt
  rw [declaredOffset_eq, byteAt_of_getElem? hx] at hoff
  exact ⟨_, hx, hoff⟩

/-- Settles O46: both operations speak of a header layout followed by the payload, and the layout is as long as declared. -/
theorem totalLengthIsHeaderPlusPayload : Obligations.TotalLengthIsHeaderPlusPayload := by
  refine ⟨fun b pl h n s hfrom => ?_, fun n s h20 => ?_, fun f pl ph out n s hto => ?_⟩
  · obtain ⟨hp, rfl, rfl⟩ := (responds_segFromBytes_iff_layout ..).1 hfrom
    rw [totalLength_mk, List.length_append, TcpHeader.bytes_length_of_parsed hp]
    exact ⟨rfl, rfl, rfl⟩
  · have hlen : (minimalHeader.bytes ++ List.replicate (n - 20) 0).length = n := by
      rw [List.length_append, TcpHeader.bytes_length_of_parsed parsedHeader_minimalHeader, List.length_replicate]
      exact Nat.add_sub_cancel' h20
    exact ⟨_, _, _, (responds_segFromBytes_iff_layout ..).2 ⟨parsedHeader_minimalHeader, rfl, hlen.symm⟩⟩
  · obtain ⟨hb, hbuild, rfl, rfl⟩ := (responds_segToBytes_iff ..).1 hto
    obtain ⟨h, hp, rfl⟩ := hdrBuild_writes_layout hbuild
    obtain ⟨x, hx, hoff⟩ := byte12_of_layout h pl
    exact ⟨x, hx, by rw [hoff, TcpHeader.bytes_length_of_parsed hp], List.length_append.symm⟩

end Machine

end Sys2Proof
end

section
/-! Exceptions (60_exceptions.md): the next command after an error (R164, R170), a wrong checksum (R172), and the table of
statuses (R166). -/

namespace Sys2Proof.Machine

/-! ### An error leaves nothing behind -/

/-- R10: whether an operation responds `r` does not depend on the state. -/
theorem responds_operation_iff_in_any_state {i : Instr} (hop : i.isOperation = true) (s s' : State) (r : Response) :
    Responds i s r ↔ Responds i s' r := by
  obtain ⟨q, hq⟩ | ⟨x, hx⟩ := exec_operation_uniform i hop
  · rw [responds_iff _ _ _ _ (hq s), responds_iff _ _ _ _ (hq s')]
  · exact iff_of_false (not_responds_of_refused (hx s) r) (not_responds_of_refused (hx s') r)

/-- An operation that completes gives a response and does nothing else to the state. -/
theorem exec_operation_next {i : Instr} (hop : i.isOperation = true) {s t : State} (h : exec i s = .next t) :
    ∃ r, t = s.respond r := by
  obtain ⟨r, hr⟩ | ⟨x, hx⟩ := exec_operation_uniform i hop
  · exact ⟨r, by simpa only [hr s, Host.Outcome.next.injEq, eq_comm] using h⟩
  · simp [hx s] at h

/-- Settles O50: an error is given by `State.respond` as a success is, so the error's own hypothesis is not needed. -/
theorem errorsLeaveNothingBehind : Obligations.ErrorsLeaveNothingBehind := by
  intro i j e s t hi hj hexec _
  obtain ⟨r, rfl⟩ := exec_operation_next hi hexec
  exact ⟨s.respond_acc r, s.respond_odd_valid r, s.respond_pos r, s.respond_presented r,
    responds_operation_iff_in_any_state hj (s.respond r) s⟩

/-! ### A wrong checksum is no error -/

/-- R136, R137: the errors of HDR.PARSE, by the length of the buffer and the offset it declares and by nothing else of it. -/
theorem parseHeader_eq_error_iff (b : Bytes) (e : ParseError) :
    parseHeader b = .error e ↔
      (b.length < 20 ∧ e = .tooShort) ∨
      (20 ≤ b.length ∧ (b.length < 4 * declaredOffset b ∨ 4 * declaredOffset b < 20) ∧ e = .invalidDataOffset) := by
  cases e with
  | tooShort => simp [parseHeader_tooShort_iff]
  | invalidDataOffset =>
    by_cases h : 20 ≤ b.length
    · simp [parseHeader_invalid_iff h, h]
    · simp [(parseHeader_tooShort_iff b).2 (Nat.not_le.1 h), h]

/-- The nibble of byte 12 is out of reach of a store into bytes 16 and 17. -/
theorem declaredOffset_memWrite16_checksum (b : Bytes) (c : Word16) :
    declaredOffset (memWrite16 b 16 c) = declaredOffset b := by
  rw [declaredOffset_eq, declaredOffset_eq, byteAt_memWrite16_ne _ _ _ _ (by decide) (by decide)]

theorem parseHeader_error_memWrite16_checksum (b : Bytes) (c : Word16) (e : ParseError) :
    parseHeader (memWrite16 b 16 c) = .error e ↔ parseHeader b = .error e := by
  rw [parseHeader_eq_error_iff, parseHeader_eq_error_iff, memWrite16_length, declaredOffset_memWrite16_checksum]

/-- The store into the checksum field of a header changes neither its other fields nor what follows it. -/
theorem memWrite16_bytes_append (h : TcpHeader) (tail : Bytes) (c : Word16) :
    memWrite16 (h.bytes ++ tail) 16 c = TcpHeader.bytes { h with checksum := c } ++ tail := rfl

theorem parseHeader_ok_memWrite16_checksum {b : Bytes} {h : TcpHeader} (hparse : parseHeader b = .ok h) (c : Word16) :
    parseHeader (memWrite16 b 16 c) = .ok { h with checksum := c } := by
  obtain ⟨hparsed, tail, rfl⟩ := (parseHeader_eq_ok_iff ..).1 hparse
  rw [memWrite16_bytes_append]
  exact (parseHeader_eq_ok_iff ..).2 ⟨hparsed, List.prefix_append ..⟩

/-- Settles O39: the errors of a parse are decided outside bytes 16 and 17, and of a parsed header's layout these bytes are
the checksum. -/
theorem wrongChecksumsAreNoError : Obligations.WrongChecksumsAreNoError := by
  refine ⟨fun ph hb pl s hp hl hraw => ?_, fun b c s => ⟨fun e => ?_, fun e => ?_, fun h hparse => ?_, fun h pl n hfrom => ?_⟩⟩
  · have hverdict : verifies ph hb pl = false := Bool.eq_false_iff.2 (mt (verifies_iff_rawCsum ph hb pl).1 hraw)
    exact (responds_csumVerify_iff ..).2 ⟨hp, hl, hverdict.symm⟩
  · rw [responds_hdrParse_err_iff, responds_hdrParse_err_iff, parseHeader_error_memWrite16_checksum]
  · rw [responds_segFromBytes_err_iff, responds_segFromBytes_err_iff, parseHeader_error_memWrite16_checksum]
  · rw [responds_hdrParse_iff] at hparse ⊢
    exact parseHeader_ok_memWrite16_checksum hparse c
  · obtain ⟨hparsed, rfl, rfl⟩ := (responds_segFromBytes_iff_layout ..).1 hfrom
    exact (responds_segFromBytes_iff_layout ..).2
      ⟨hparsed, memWrite16_bytes_append h pl c, (memWrite16_length ..).symm⟩

/-! ### The statuses of each operation -/

theorem not_responds_csumCompute_err (ph : PseudoHeader) (hb pl : Bytes) (s : State) (e : ParseError) :
    ¬ Responds (.csumCompute ph hb pl) s (.err e) := by
  rw [responds_iff_admitted (exec_csumCompute ph hb pl s) (fun _ h => exec_csumCompute_refused h s)]
  simp [csumResponse]

theorem not_responds_csumVerify_err (ph : PseudoHeader) (hb pl : Bytes) (s : State) (e : ParseError) :
    ¬ Responds (.csumVerify ph hb pl) s (.err e) := by
  rw [responds_iff_admitted (exec_csumVerify ph hb pl s) (fun _ h => exec_csumVerify_refused h s)]
  simp [validResponse]

theorem not_responds_hdrBuild_tooShort (f : Fields) (pl : Bytes) (ph : PseudoHeader) (s : State) :
    ¬ Responds (.hdrBuild f pl ph) s (.err .tooShort) := by
  rw [responds_iff_build_admitted (exec_hdrBuild f pl ph s) (fun _ h => exec_hdrBuild_refused h s),
    err_eq_buildResponse_iff]
  obtain ⟨-, he⟩ | ⟨-, he⟩ := buildHeader_cases f pl ph <;> simp [he]

/-- R144: both errors of HDR.PARSE occur, on nineteen and on twenty zero bytes. -/
theorem exists_responds_hdrParse_err (s : State) (e : ParseError) : ∃ b, Responds (.hdrParse b) s (.err e) := by
  obtain ⟨-, hinvalid, hshort⟩ := minimumLengthBoundary s
  cases e with
  | tooShort => exact ⟨_, hshort⟩
  | invalidDataOffset => exact ⟨_, hinvalid⟩

/-- Fields of a header without options that supply the data offset 0 in place of 5 (R131). -/
def offsetZeroFields : Fields := { Operands.blank.f with dataOffsetValid := true }

theorem offsetConsistent_offsetZeroFields : offsetConsistent offsetZeroFields = false := by decide

/-- Settles O48: SEG.TO_BYTES and SEG.FROM_BYTES have the errors of HDR.BUILD and HDR.PARSE (O44, O45); an OK of the builds
and the checksums is that on blank operands, an OK of the parses that on the shortest header. -/
theorem statusesOfEachOperation : Obligations.StatusesOfEachOperation := by
  obtain ⟨hbuilds, htoBytesErr⟩ := toBytesIsTheHeaderThenThePayload
  refine ⟨fun ph hb pl f s e => ⟨not_responds_csumCompute_err ph hb pl s e, not_responds_csumVerify_err ph hb pl s e,
    not_responds_hdrBuild_tooShort f pl ph s, mt (htoBytesErr f pl ph s _).2 (not_responds_hdrBuild_tooShort f pl ph s)⟩,
    fun s => ?_⟩
  have hcompute := (responds_csumCompute_iff Operands.blank.ph [] [] s _).2 ⟨rfl, Nat.zero_le _, rfl⟩
  have hverify := (responds_csumVerify_iff Operands.blank.ph [] [] s _).2 ⟨rfl, Nat.zero_le _, rfl⟩
  obtain ⟨out, -, hbuild, htoBytes⟩ :=
    hbuilds Operands.blank.f [] Operands.blank.ph s 5 rfl rfl (by decide) (by decide) (by decide)
  have hbuildErr := (responds_hdrBuild_err_iff offsetZeroFields [] Operands.blank.ph s).2
    ⟨rfl, offsetConsistent_offsetZeroFields⟩
  obtain ⟨hparse, -⟩ := minimumLengthBoundary s
  obtain ⟨b, pl, h, hfrom⟩ := totalLengthIsHeaderPlusPayload.2.1 20 s le_rfl
  refine ⟨⟨_, _, _, _, hcompute⟩, ⟨_, _, _, _, hverify⟩, ⟨_, _, _, _, hbuild⟩, ⟨_, _, _, _, htoBytes⟩, ⟨_, _, _, hbuildErr⟩,
    ⟨_, _, _, (htoBytesErr ..).1 hbuildErr⟩, ⟨_, _, hparse⟩, ⟨_, _, hfrom⟩, exists_responds_hdrParse_err s, fun e => ?_⟩
  obtain ⟨b, hb⟩ := exists_responds_hdrParse_err s e
  exact ⟨b, (fromBytesIsTheHeaderAndTheRest.2 b s e).1 hb⟩

end Sys2Proof.Machine
end

section
/-! Pseudo-headers of one checksum (70_reset_and_hazards.md R191): the addresses enter by the sum of their words alone. -/

namespace Sys2Proof.Machine

/-- R90: of the addresses, the sum over the stream holds no more than the sum of their four words. -/
theorem sum16_stream_eq_of_addresses {ph ph' : PseudoHeader} (hproto : ph'.protocol = ph.protocol)
    (hsum : sum16 (put32 ph'.src) + sum16 (put32 ph'.dst) = sum16 (put32 ph.src) + sum16 (put32 ph.dst))
    (hb pl : Bytes) : sum16 (stream ph' hb pl) = sum16 (stream ph hb pl) := by
  rw [sum16_stream, sum16_stream, hsum, hproto]

/-- R103: a change of the addresses that keeps the sum of their words keeps the verdict. -/
theorem responds_csumVerify_iff_of_addresses {ph ph' : PseudoHeader} (hproto : ph'.protocol = ph.protocol)
    (hsum : sum16 (put32 ph'.src) + sum16 (put32 ph'.dst) = sum16 (put32 ph.src) + sum16 (put32 ph.dst))
    (hb pl : Bytes) (s : State) (v : Bool) :
    Responds (.csumVerify ph' hb pl) s (validResponse v) ↔ Responds (.csumVerify ph hb pl) s (validResponse v) := by
  rw [responds_csumVerify_iff, responds_csumVerify_iff, verifies, verifies, rawCsum, rawCsum,
    sum16_stream_eq_of_addresses hproto hsum, hproto]

/-- From 0.0.0.3 to 0.0.0.0. -/
def phThreeZero : PseudoHeader := { src := 3, dst := 0, protocol := 6 }

/-- From 0.0.0.2 to 0.0.0.1: the addresses of `phThreeZero`, one lowered and one raised by 1. -/
def phTwoOne : PseudoHeader := { src := 2, dst := 1, protocol := 6 }

/-- The shortest header with the checksum that CSUM.COMPUTE gives it from 0.0.0.3 to 0.0.0.0. -/
def minimalHeaderSummed : TcpHeader := { minimalHeader with checksum := 0xAFE2 }

theorem responds_csumVerify_minimalHeaderSummed (s : State) :
    Responds (.csumVerify phThreeZero minimalHeaderSummed.bytes []) s (validResponse true) :=
  (responds_csumVerify_iff ..).2 ⟨rfl, by decide, by decide⟩

/-- Refutes O57: from 0.0.0.3 to 0.0.0.0 and from 0.0.0.2 to 0.0.0.1 the address words have one sum, so the header that
verifies under the one pseudo-header verifies under the other, which is neither the same nor its exchange. -/
theorem not_onlyTheExchangeOfAddressesKeepsTheVerdict :
    ¬ Obligations.OnlyTheExchangeOfAddressesKeepsTheVerdict := by
  intro h
  have hverified := responds_csumVerify_minimalHeaderSummed .reset
  have hkept : Responds (.csumVerify phTwoOne minimalHeaderSummed.bytes []) .reset (validResponse true) :=
    (responds_csumVerify_iff_of_addresses rfl (by decide) ..).2 hverified
  have hclaim := h phThreeZero phTwoOne _ _ _ rfl hverified hkept
  exact absurd hclaim (by decide)

end Sys2Proof.Machine
end

section
/-! The decoder and the encoder (30_encoding.md R60 to R64, R70, R72): each undoes the other, and the wire words that decode. -/

namespace Sys2Proof

open Machine

/-! ### Decoding an encoded instruction -/

/-- The layout of two 16-bit fields, read back field by field (R60). -/
theorem be16_of_put16_append (v w : Word16) : be16 (put16 v ++ put16 w) 0 = v ∧ be16 (put16 v ++ put16 w) 2 = w :=
  ⟨halves_append v, halves_append w⟩

/-- Settles O1: a command and a status code are taken as they stand, and at the position of its row a wire word is read by
the layout it was written in. -/
theorem encodingsDecodeToTheirInstruction : Obligations.EncodingsDecodeToTheirInstruction := by
  intro i pos hstands
  cases i with
  | csumCompute | csumVerify | hdrBuild | hdrParse | segToBytes | segFromBytes | reservedOp0 | reservedOp7 | status => rfl
  | tcphdrW0 sp dp =>
    obtain rfl := of_decide_eq_true hstands
    exact congrArg₂ (Except.ok <| Instr.tcphdrW0 · ·) (halves_append sp) (halves_append dp)
  | tcphdrW1 q =>
    obtain rfl := of_decide_eq_true hstands
    exact congrArg (Except.ok <| Instr.tcphdrW1 ·) (be32_of_put32 q)
  | tcphdrW2 a =>
    obtain rfl := of_decide_eq_true hstands
    exact congrArg (Except.ok <| Instr.tcphdrW2 ·) (be32_of_put32 a)
  | tcphdrW3 d r f w =>
    obtain rfl := of_decide_eq_true hstands
    obtain ⟨hpair, hwindow⟩ := be16_of_put16_append (pairWithReserved d r f) w
    rw [encode, decode_wire_of_slot 24 _ .tcphdrW3 rfl rfl, decodeWord]
    simp only [hpair, hwindow, getDoff_pair, getRsv_pair, getFlags_pair]
  | tcphdrW4 k u =>
    obtain rfl := of_decide_eq_true hstands
    exact congrArg₂ (Except.ok <| Instr.tcphdrW4 · ·) (halves_append k) (halves_append u)
  | tcphdrOpt x0 x1 x2 x3 =>
    rw [encode, decode_wire_of_slot pos _ .tcphdrOpt rfl (slotAt_opt pos (of_decide_eq_true hstands))]
    rfl
  | pseudoW0 a =>
    obtain rfl := of_decide_eq_true hstands
    exact congrArg (Except.ok <| Instr.pseudoW0 ·) (be32_of_put32 a)
  | pseudoW1 a =>
    obtain rfl := of_decide_eq_true hstands
    exact congrArg (Except.ok <| Instr.pseudoW1 ·) (be32_of_put32 a)
  | pseudoW2 p l =>
    obtain rfl := of_decide_eq_true hstands
    exact congrArg (Except.ok <| Instr.pseudoW2 p ·) (halves_append l)

/-! ### Encoding what a wire word decodes to -/

/-- What a row reads from four bytes it writes as those bytes, and stands where the row is read. -/
theorem decodeWord_ok {slot : Slot} {bs : Bytes} {i : Instr} (hlen : bs.length = 4) (h : decodeWord slot bs = .ok i) :
    encode i = .wire bs ∧ ∀ pos, slot.holdsAt pos → i.standsAt pos = true := by
  obtain ⟨a, b, c, d, rfl⟩ := bytes_of_length_four bs hlen
  have hlong : put32 (be32 [a, b, c, d] 0) = [a, b, c, d] := put32_be32 _ 0
  have hshort : put16 (be16 [a, b, c, d] 0) ++ put16 (be16 [a, b, c, d] 2) = [a, b, c, d] := by
    rw [put16_be16, put16_be16]
    rfl
  cases slot with
  | pseudoW0 | pseudoW1 | tcphdrW1 | tcphdrW2 => cases h; exact ⟨congrArg _ hlong, by simp [Instr.standsAt, Slot.holdsAt]⟩
  | tcphdrW0 | tcphdrW4 => cases h; exact ⟨congrArg _ hshort, by simp [Instr.standsAt, Slot.holdsAt]⟩
  | tcphdrW3 =>
    cases h
    exact ⟨by rw [encode, pair_of_fields, hshort], by simp [Instr.standsAt, Slot.holdsAt]⟩
  | tcphdrOpt => cases h; exact ⟨rfl, by simp [Instr.standsAt, Slot.holdsAt]⟩
  | pseudoW2 =>
    rw [decodeWord] at h
    split at h
    case isTrue hzero =>
      cases h
      refine ⟨?_, by simp [Instr.standsAt, Slot.holdsAt]⟩
      rw [encode, put16_be16, ← hzero]
      rfl
    case isFalse => cases h

/-- Settles O2: the row that reads a word writes it again. -/
theorem wireWordsHaveOneReading : Obligations.WireWordsHaveOneReading := by
  intro pos bs i h
  obtain ⟨slot, hlen, hslot, hword⟩ := decode_wire_ok pos bs i h
  obtain ⟨hencode, hstands⟩ := decodeWord_ok hlen hword
  exact ⟨hstands pos (slotAt_holdsAt pos slot hslot), hencode⟩

/-! ### The wire words that decode -/

/-- R60, R63, R64: the rows cover the multiples of 4 below 72. -/
theorem exists_slotAt_iff (pos : Nat) : (∃ slot, slotAt pos = some slot) ↔ pos < 72 ∧ pos % 4 = 0 := by
  constructor
  · rintro ⟨slot, hslot⟩
    have hholds := slotAt_holdsAt pos slot hslot
    cases slot <;> simp only [Slot.holdsAt] at hholds <;> omega
  · rintro ⟨hlt, hmod⟩
    by_cases h32 : 32 ≤ pos
    · exact ⟨_, slotAt_opt pos ⟨h32, hlt, hmod⟩⟩
    · have hrows : ∀ p < 32, p % 4 = 0 → (slotAt p).isSome := by decide
      exact Option.isSome_iff_exists.1 (hrows pos (by omega) hmod)

theorem slotAt_eq_pseudoW2_iff (pos : Nat) : slotAt pos = some .pseudoW2 ↔ pos = 8 :=
  ⟨slotAt_holdsAt pos _, fun h => h ▸ rfl⟩

/-- The zero byte of PSEUDO.W2 is the one thing a row asks of the bytes it reads (R64). -/
theorem exists_decodeWord_iff (slot : Slot) (bs : Bytes) :
    (∃ i, decodeWord slot bs = .ok i) ↔ (slot = .pseudoW2 → byteAt bs 0 = 0) := by
  cases slot with
  | pseudoW2 =>
    rw [decodeWord]
    split
    case isTrue h => simp [h]
    case isFalse h => simpa using h
  | _ => simp [decodeWord]

/-- Settles O5: a row at the position, and its zero byte. -/
theorem wireWordsThatDecode : Obligations.WireWordsThatDecode := by
  intro pos bs
  constructor
  · rintro ⟨i, h⟩
    obtain ⟨slot, hlen, hslot, hword⟩ := decode_wire_ok pos bs i h
    obtain ⟨hlt, hmod⟩ := (exists_slotAt_iff pos).1 ⟨slot, hslot⟩
    refine ⟨hlen, hlt, hmod, fun h8 => ?_⟩
    have hzero := (exists_decodeWord_iff slot bs).1 ⟨i, hword⟩
      (Option.some.inj (hslot.symm.trans ((slotAt_eq_pseudoW2_iff pos).2 h8)))
    obtain ⟨a, b, c, d, rfl⟩ := bytes_of_length_four bs hlen
    exact congrArg some hzero
  · rintro ⟨hlen, hlt, hmod, hzero⟩
    obtain ⟨slot, hslot⟩ := (exists_slotAt_iff pos).2 ⟨hlt, hmod⟩
    rw [decode_wire_of_slot pos bs slot hlen hslot, exists_decodeWord_iff]
    rintro rfl
    exact byteAt_of_getElem? (hzero ((slotAt_eq_pseudoW2_iff pos).1 hslot))

/-! ### The words and codes of the tables -/

/-- Settles O3: the seven items, decoded. -/
theorem decodedWordsFromTheTables : Obligations.DecodedWordsFromTheTables := by
  unfold Obligations.DecodedWordsFromTheTables
  decide

/-- Settles O4: OP is the one thing a command is told by. -/
theorem opSelectsTheOperation : Obligations.OpSelectsTheOperation :=
  fun _ _ => ⟨rfl, rfl, rfl, rfl, rfl, rfl, rfl, rfl⟩

end Sys2Proof
end

section
/-! Wire words as steps of the serial datapath (30_encoding.md R60 to R64, 40_checksum.md R101): each feeds its encoding. -/

namespace Sys2Proof.Machine

/-! ### A wire word feeds its encoding -/

theorem wf_pseudoW2_iff (p : Byte) (l : Word16) : (Instr.pseudoW2 p l).wf = true ↔ p = 6 := by
  simp [Instr.wf, Instr.illFormed]

/-- A wire word is four bytes, and when it is admitted it completes by feeding them. -/
theorem exec_wireWord {i : Instr} (hword : i.isWireWord = true) (hwf : i.wf = true) :
    ∃ bs : Bytes, bs.length = 4 ∧ encode i = .wire bs ∧ ∀ s, exec i s = .next (s.feed bs) := by
  cases i with
  | csumCompute | csumVerify | hdrBuild | hdrParse | segToBytes | segFromBytes | reservedOp0 | reservedOp7 | status =>
    cases hword
  | tcphdrW0 | tcphdrW1 | tcphdrW2 | tcphdrW3 | tcphdrW4 | pseudoW0 | pseudoW1 => exact ⟨_, rfl, rfl, fun _ => rfl⟩
  | tcphdrOpt x0 x1 x2 x3 => exact ⟨[x0, x1, x2, x3], rfl, rfl, fun _ => rfl⟩
  | pseudoW2 p l =>
    exact ⟨_, rfl, rfl, fun _ => if_pos ((wf_pseudoW2_iff p l).1 hwf)⟩

/-- Each byte turns the phase over, so four keep it (R101). -/
theorem State.feed_four_odd_valid (s : State) {bs : Bytes} (h : bs.length = 4) :
    (s.feed bs).odd.valid = s.odd.valid := by
  obtain ⟨a, b, c, d, rfl⟩ := bytes_of_length_four bs h
  simp

/-- Settles O27: four bytes fed leave the phase, the response and the input alone. -/
theorem wireWordsFeedTheirEncoding : Obligations.WireWordsFeedTheirEncoding := by
  intro i s hword hwf
  obtain ⟨bs, hlen, hencode, hexec⟩ := exec_wireWord hword hwf
  obtain ⟨hpresented, hrsp, hpos⟩ := s.feed_frame bs
  exact ⟨bs, _, hencode, hexec s, rfl, by rw [hpos, hlen], s.feed_four_odd_valid hlen, hrsp, hpresented⟩

/-! ### The two halves of a wire word -/

/-- The datapath after the two 16-bit words `hi`, `lo` taken from a word boundary (R101). -/
def State.addHalves (s : State) (hi lo : Word16) : State :=
  { s with acc := s.acc + hi.setWidth 32 + lo.setWidth 32,
           odd := { valid := false, byte := lo.extractLsb' 8 8 }, pos := s.pos + 4 }

theorem State.feed_halves {s : State} (h : s.odd.valid = false) (hi lo : Word16) :
    s.feed (put16 hi ++ put16 lo) = s.addHalves hi lo := by
  have hword (v : Word16) (t : State) (ht : t.odd.valid = false) :
      t.feed (put16 v) = { t with acc := t.acc + v.setWidth 32,
                                  odd := { valid := false, byte := v.extractLsb' 8 8 }, pos := t.pos + 2 } := by
    rw [put16, State.feed_cons, State.feed_cons, State.feedByte_of_not_valid t _ ht, State.feedByte_of_valid _ _ rfl,
      halves_append]
    rfl
  rw [State.feed_append, hword hi s h, hword lo _ rfl]
  rfl

/-- R61: the pair of a received word is the sum of its three fields. -/
theorem pairWithReserved_toNat (d r : BitVec 4) (f : TcpFlags) :
    (pairWithReserved d r f).toNat = 4096 * d.toNat + 256 * r.toNat + f.octet := by
  have hd := d.isLt
  have hr := r.isLt
  have hf := f.octet_lt
  have hdoff : (d.setWidth 16 <<< 12).toNat = 4096 * d.toNat := by
    rw [BitVec.toNat_shiftLeft, BitVec.toNat_setWidth, Nat.shiftLeft_eq]
    omega
  have hrsv : (r.setWidth 16 <<< 8).toNat = 256 * r.toNat := by
    rw [BitVec.toNat_shiftLeft, BitVec.toNat_setWidth, Nat.shiftLeft_eq]
    omega
  have hhigh := toNat_or_of_dvd (d.setWidth 16 <<< 12) (r.setWidth 16 <<< 8) 12 (by omega) (by omega)
  rw [pairWithReserved, pack, BitVec.or_assoc, BitVec.or_comm (flagBits f), ← BitVec.or_assoc,
    toNat_or_of_dvd _ _ 8 (by omega) (by rw [flagBits_toNat]; omega), hhigh, hdoff, hrsv, flagBits_toNat]

theorem put32_eq_halves (q : Word32) : put32 q = put16 (q.extractLsb' 16 16) ++ put16 (q.extractLsb' 0 16) := by
  have hq : (q.extractLsb' 16 16 ++ q.extractLsb' 0 16 : Word32) = q := by
    rw [BitVec.extractLsb'_append_extractLsb'_eq_extractLsb' (by decide), BitVec.extractLsb'_eq_self]
  rw [← put32_of_append, hq]

/-- Settles O26: every row lays its word out as two 16-bit halves. -/
theorem wireWordsAddTheirHalves : Obligations.WireWordsAddTheirHalves := by
  intro s sp dp w k u l q d r f x0 x1 x2 x3 h after
  have hhalves (hi lo : Word16) : feedWord (put16 hi ++ put16 lo) s = .next (after hi lo) :=
    congrArg Host.Outcome.next (s.feed_halves h hi lo)
  have hlong : feedWord (put32 q) s = .next (after (q.extractLsb' 16 16) (q.extractLsb' 0 16)) := by
    rw [put32_eq_halves, hhalves]
  have hpair : pairWithReserved d r f = BitVec.ofNat 16 (4096 * d.toNat + 256 * r.toNat + f.octet) := by
    rw [← pairWithReserved_toNat, BitVec.ofNat_toNat, BitVec.setWidth_eq]
  have hproto : put16 0x0006 = [0x00, 0x06] := by decide
  refine ⟨hhalves sp dp, hlong, hlong, ?_, hhalves k u, ?_, hlong, hlong, ?_⟩
  · rw [exec, execTcphdrW3, hhalves, hpair]
    rfl
  · rw [← hhalves, put16_of_append, put16_of_append]
    rfl
  · rw [← hhalves, hproto]
    rfl

end Sys2Proof.Machine
end

section
/-! One step (20_memory.md R51, R52, R55): the first presented item is taken, decoded and run. -/

namespace Sys2Proof.Machine

/-- Settles O6: the two ends of decoding the first item. -/
theorem stepRunsTheDecodedInstruction : Obligations.StepRunsTheDecodedInstruction := by
  intro s p rest hpresented
  rw [step, State.fetch_cons s p hpresented]
  exact ⟨fun i hdecode => by simp only [hdecode], fun e hdecode => by simp only [hdecode]⟩

/-- Settles O7: there is no item to take. -/
theorem idleBlockStaysIdle : Obligations.IdleBlockStaysIdle := by
  intro s hpresented
  rw [step, s.fetch_nil hpresented]

/-- A run takes its first step and goes on from where it leads. -/
theorem run_succ {s t : State} (h : step s = .next t) (n : Nat) :
    Host.Core.run core (n + 1) s = Host.Core.run core n t := by
  have hstep : core.step s = .next t := h
  simp only [Host.Core.run, hstep]

end Sys2Proof.Machine
end

section
/-! Admission (30_encoding.md R74, R75): an instruction is answered exactly when it is well-formed, and refused otherwise. -/

namespace Sys2Proof.Machine

/-! ### The well-formedness check as conditions on the operands -/

theorem checkSegment_isNone_iff (ph : PseudoHeader) (fits : Bool) :
    (checkSegment ph fits).isNone = true ↔ ph.protocol = 6 ∧ fits = true := by
  rw [← isTcp_iff, checkSegment]
  cases isTcp ph <;> cases fits <;> simp

theorem wf_csumCompute_iff (ph : PseudoHeader) (hb pl : Bytes) :
    (Instr.csumCompute ph hb pl).wf = true ↔ ph.protocol = 6 ∧ hb.length + pl.length ≤ 65535 := by
  rw [← checksumFits_iff]
  exact checkSegment_isNone_iff ..

theorem wf_csumVerify_iff (ph : PseudoHeader) (hb pl : Bytes) :
    (Instr.csumVerify ph hb pl).wf = true ↔ ph.protocol = 6 ∧ hb.length + pl.length ≤ 65535 :=
  wf_csumCompute_iff ph hb pl

theorem wf_hdrBuild_iff (f : Fields) (pl : Bytes) (ph : PseudoHeader) :
    (Instr.hdrBuild f pl ph).wf = true ↔ ph.protocol = 6 ∧ buildFits f pl = true :=
  checkSegment_isNone_iff ..

theorem wf_segToBytes_iff (f : Fields) (pl : Bytes) (ph : PseudoHeader) :
    (Instr.segToBytes f pl ph).wf = true ↔ ph.protocol = 6 ∧ buildFits f pl = true :=
  checkSegment_isNone_iff ..

/-! ### Answered or refused -/

theorem not_exists_next_of_refused {i : Instr} {s : State} {x : Refusal} (h : exec i s = .refused x) :
    ¬ ∃ t, exec i s = .next t := by
  simp [h]

/-- An instruction that is refused when `refusal` says so and completes otherwise. -/
theorem exists_next_iff_of_refusal {i : Instr} {s t : State} {refusal : Option Refusal}
    (hanswered : refusal = none → exec i s = .next t) (hrefused : ∀ x, refusal = some x → exec i s = .refused x) :
    (∃ t, exec i s = .next t) ↔ refusal = none := by
  cases refusal with
  | none => exact iff_of_true ⟨t, hanswered rfl⟩ rfl
  | some x => exact iff_of_false (not_exists_next_of_refused (hrefused x rfl)) (by simp)

/-- R72, R75: STATUS completes with the response of its code, and only the code 3 has none. -/
theorem exec_status (s : State) :
    exec (.status 0) s = .next (s.respond (.ok Results.empty)) ∧
    exec (.status 1) s = .next (s.respond (.err .tooShort)) ∧
    exec (.status 2) s = .next (s.respond (.err .invalidDataOffset)) ∧
    exec (.status 3) s = .refused .reservedStatus := ⟨rfl, rfl, rfl, rfl⟩

theorem status_code_cases : ∀ code : BitVec 2, code = 0 ∨ code = 1 ∨ code = 2 ∨ code = 3 := by decide

/-- Settles O11: the meanings and the check ask the same conditions of the operands, and nothing of the state. -/
theorem answeredExactlyWhenWellFormed : Obligations.AnsweredExactlyWhenWellFormed := by
  intro i s
  cases i with
  | csumCompute ph hb pl =>
    rw [wf_csumCompute_iff, ← checksumRefusal_eq_none]
    exact exists_next_iff_of_refusal
      (fun h => (checksumRefusal_eq_none ph hb pl).1 h |>.elim (exec_csumCompute ph hb pl s))
      fun _ h => exec_csumCompute_refused h s
  | csumVerify ph hb pl =>
    rw [wf_csumVerify_iff, ← checksumRefusal_eq_none]
    exact exists_next_iff_of_refusal
      (fun h => (checksumRefusal_eq_none ph hb pl).1 h |>.elim (exec_csumVerify ph hb pl s))
      fun _ h => exec_csumVerify_refused h s
  | hdrBuild f pl ph =>
    rw [wf_hdrBuild_iff, ← buildRefusal_eq_none]
    exact exists_next_iff_of_refusal
      (fun h => (buildRefusal_eq_none f pl ph).1 h |>.elim (exec_hdrBuild f pl ph s))
      fun _ h => exec_hdrBuild_refused h s
  | segToBytes f pl ph =>
    rw [wf_segToBytes_iff, ← buildRefusal_eq_none]
    exact exists_next_iff_of_refusal
      (fun h => (buildRefusal_eq_none f pl ph).1 h |>.elim (exec_segToBytes f pl ph s))
      fun _ h => exec_segToBytes_refused h s
  | hdrParse b => exact iff_of_true ⟨_, exec_hdrParse b s⟩ rfl
  | segFromBytes b => exact iff_of_true ⟨_, exec_segFromBytes b s⟩ rfl
  | reservedOp0 | reservedOp7 => exact iff_of_false (not_exists_next_of_refused rfl) (by decide)
  | tcphdrW0 | tcphdrW1 | tcphdrW2 | tcphdrW3 | tcphdrW4 | tcphdrOpt | pseudoW0 | pseudoW1 =>
    exact iff_of_true ⟨_, rfl⟩ rfl
  | pseudoW2 p l =>
    rw [wf_pseudoW2_iff, exec, execPseudoW2]
    split
    case isTrue hp => exact iff_of_true ⟨_, rfl⟩ hp
    case isFalse hp => exact iff_of_false (by simp) hp
  | status code =>
    obtain ⟨h0, h1, h2, h3⟩ := exec_status s
    obtain rfl | rfl | rfl | rfl := status_code_cases code
    · exact iff_of_true ⟨_, h0⟩ rfl
    · exact iff_of_true ⟨_, h1⟩ rfl
    · exact iff_of_true ⟨_, h2⟩ rfl
    · exact iff_of_false (not_exists_next_of_refused h3) (by decide)

/-- An instruction that is not well-formed is refused: it never faults (R180). -/
theorem refused_iff_not_wf (i : Instr) (s : State) : Refused i s ↔ ¬ i.wf = true := by
  rw [← answeredExactlyWhenWellFormed i s, Refused]
  obtain ⟨r, h⟩ | ⟨bs, -, h⟩ | ⟨r, h⟩ := exec_cases i s <;> simp [h]

/-- A well-formed operation responds. -/
theorem exists_responds_of_wf {i : Instr} (hop : i.isOperation = true) (hwf : i.wf = true) (s : State) :
    ∃ r, Responds i s r := by
  obtain ⟨t, ht⟩ := (answeredExactlyWhenWellFormed i s).2 hwf
  obtain ⟨r, rfl⟩ := exec_operation_next hop ht
  exact ⟨r, _, ht, s.respond_rsp r⟩

/-- Settles O8: the bounds of R74 are the well-formedness of the six operations. -/
theorem admittedCommandsAreAnswered : Obligations.AdmittedCommandsAreAnswered := by
  intro ph hb pl b f s
  refine ⟨fun hp hl => ⟨?_, ?_⟩, fun hp hl => ⟨?_, ?_⟩, exists_responds_of_wf rfl rfl s, exists_responds_of_wf rfl rfl s⟩
  · exact exists_responds_of_wf rfl ((wf_csumCompute_iff ph hb pl).2 ⟨hp, hl⟩) s
  · exact exists_responds_of_wf rfl ((wf_csumVerify_iff ph hb pl).2 ⟨hp, hl⟩) s
  · exact exists_responds_of_wf rfl ((wf_hdrBuild_iff f pl ph).2 ⟨hp, (buildFits_iff f pl).2 hl⟩) s
  · exact exists_responds_of_wf rfl ((wf_segToBytes_iff f pl ph).2 ⟨hp, (buildFits_iff f pl).2 hl⟩) s

/-- Settles O9: outside these bounds the four operations with a pseudo-header are not well-formed. -/
theorem commandsOutsideTheDomainAreRefused : Obligations.CommandsOutsideTheDomainAreRefused := by
  intro ph hb pl f s
  simp only [refused_iff_not_wf, wf_csumCompute_iff, wf_csumVerify_iff, wf_hdrBuild_iff, wf_segToBytes_iff,
    buildFits_iff, and_self]
  refine ⟨fun hout hwf => ?_, fun hout hwf => ?_⟩
  · obtain ⟨hp, hl⟩ := hwf
    exact hout.elim (absurd hp) (by omega)
  · obtain ⟨hp, hfits⟩ := hwf
    obtain hproto | ⟨h15, hsupplied, hlong⟩ := hout
    · exact hproto hp
    · exact absurd (hfits h15 hsupplied) (by omega)

/-! ### Reserved codes, and STATUS -/

/-- A response with status code 3 cannot be written down (R75). -/
theorem response_code_ne_three (r : Response) : r.code ≠ 3 := by
  cases r with
  | ok r => exact (by decide : (0 : BitVec 2) ≠ 3)
  | err e => cases e <;> decide

/-- Settles O10: the codes have arms of their own, which refuse. -/
theorem reservedCodesAreRefused : Obligations.ReservedCodesAreRefused := by
  refine ⟨fun s o rest h => ?_, fun s o rest h => ?_, fun s => ⟨rfl, rfl, rfl⟩, response_code_ne_three⟩
  · exact (stepRunsTheDecodedInstruction s _ rest h).1 .reservedOp0 rfl
  · exact (stepRunsTheDecodedInstruction s _ rest h).1 .reservedOp7 rfl

/-- Settles O52: STATUS gives its response as every operation does. -/
theorem statusRowGivesItsResponse : Obligations.StatusRowGivesItsResponse := by
  intro s idle
  obtain ⟨h0, h1, h2, -⟩ := exec_status s
  exact ⟨h0, h1, h2, rfl, rfl, rfl⟩

end Sys2Proof.Machine
end

section
/-! The responses an instruction can give are legal (10_state.md R27, 30_encoding.md R70), and it leaves the block idle. -/

namespace Sys2Proof.Machine

/-- An error, or results the rules allow: what a pending response must be for `State.responseInv`. -/
def Response.legal : Response → Bool
  | .ok r => r.legal
  | .err _ => true

/-! What is asked of each form of response. -/

@[simp] theorem csumResponse_legal (c : Word16) : (csumResponse c).legal = (c != 0) := rfl
@[simp] theorem validResponse_legal (v : Bool) : (validResponse v).legal = true := rfl
@[simp] theorem outResponse_legal (out : Bytes) :
    (outResponse out).legal = (builtHeader out && (out.length == 4 * declaredOffset out)) := rfl
@[simp] theorem headerResponse_legal (h : TcpHeader) : (headerResponse h).legal = parsedHeader h := rfl
@[simp] theorem segmentBytesResponse_legal (out : Bytes) (n : Nat) :
    (segmentBytesResponse out n).legal = (builtHeader out && (n == out.length) && decide (n ≤ 65535)) := rfl
@[simp] theorem segmentResponse_legal (h : TcpHeader) (pl : Bytes) (n : Nat) :
    (segmentResponse h pl n).legal = (parsedHeader h && (n == 4 * h.dataOffset.toNat + pl.length)) := rfl

@[simp] theorem respond_responseInv (s : State) (r : Response) : (s.respond r).responseInv = r.legal := by
  cases r <;> rfl

theorem csum_ne_zero (ph : PseudoHeader) (hb pl : Bytes) : csum ph hb pl ≠ 0 := by
  rw [csum]
  split
  case isTrue => decide
  case isFalse h => exact h

/-- What HDR.BUILD writes is a built header, alone or in front of a payload, and of its declared length (R16, R76, R130). -/
theorem hdrBuild_writes_builtHeader {f : Fields} {pl : Bytes} {ph : PseudoHeader} {s : State} {out : Bytes}
    (hbuild : Responds (.hdrBuild f pl ph) s (outResponse out)) (tail : Bytes) :
    builtHeader (out ++ tail) = true ∧ out.length = 4 * declaredOffset (out ++ tail) := by
  obtain ⟨h, hp, hout⟩ := hdrBuild_writes_layout hbuild
  obtain ⟨-, -, -, hstored⟩ := (responds_hdrBuild_iff ..).1 hbuild
  obtain ⟨h5, -⟩ := h.parsedHeader_iff.1 hp
  have hoff : declaredOffset (out ++ tail) = h.dataOffset.toNat := by rw [← hout, h.declaredOffset_bytes]
  have hlen : out.length = 4 * h.dataOffset.toNat := by rw [← hout, TcpHeader.bytes_length_of_parsed hp]
  have hlayout : out = TcpHeader.bytes { f.assembled with checksum := csum ph (assemble f) pl } := by
    rw [hstored, ← TcpHeader.memWrite16_bytes, Fields.bytes_assembled]
  have hrsv : getRsv (rawPair (out ++ tail)) = 0 := by
    rw [hlayout, TcpHeader.rawPair_bytes, getRsv_pair]
    rfl
  have hcsum : be16 (out ++ tail) 16 = csum ph (assemble f) pl := by
    rw [be16_of_prefix (List.prefix_append out tail) (by omega), hlayout, TcpHeader.be16_checksum_bytes]
  refine ⟨?_, by rw [hoff, hlen]⟩
  simp only [builtHeader, hoff, hrsv, hcsum, List.length_append, hlen, Bool.and_eq_true, decide_eq_true_eq, beq_iff_eq,
    bne_iff_ne]
  exact ⟨⟨⟨h5, by omega⟩, trivial⟩, csum_ne_zero ph _ pl⟩

/-! ### The responses of each operation -/

theorem hdrBuild_response_legal {f : Fields} {pl : Bytes} {ph : PseudoHeader} {s : State} {r : Response}
    (hresp : Responds (.hdrBuild f pl ph) s r) : r.legal = true := by
  obtain ⟨-, -, rfl⟩ :=
    (responds_iff_build_admitted (exec_hdrBuild f pl ph s) (fun _ h => exec_hdrBuild_refused h s) r).1 hresp
  cases hx : buildHeader f pl ph with
  | error e => rfl
  | ok out =>
    rw [hx] at hresp
    obtain ⟨hbuilt, hlen⟩ := hdrBuild_writes_builtHeader hresp []
    rw [List.append_nil] at hbuilt hlen
    rw [buildResponse, outResponse_legal, hbuilt, hlen, Bool.true_and, BEq.rfl]

theorem segToBytes_response_legal {f : Fields} {pl : Bytes} {ph : PseudoHeader} {s : State} {r : Response}
    (hresp : Responds (.segToBytes f pl ph) s r) : r.legal = true := by
  obtain ⟨-, -, rfl⟩ :=
    (responds_iff_build_admitted (exec_segToBytes f pl ph s) (fun _ h => exec_segToBytes_refused h s) r).1 hresp
  cases hx : buildHeader f pl ph with
  | error e => rfl
  | ok out =>
    rw [hx] at hresp
    obtain ⟨hb, hbuild, happ, -⟩ := (responds_segToBytes_iff ..).1 hresp
    obtain ⟨hbuilt, -⟩ := hdrBuild_writes_builtHeader hbuild pl
    obtain ⟨-, -, hmax, hstored⟩ := (responds_hdrBuild_iff ..).1 hbuild
    have hlen : hb.length = 4 * derivedOffset f.options := by rw [hstored, memWrite16_length, assemble_length]
    rw [← List.append_cancel_right happ] at hbuilt hlen
    simp [toBytesResponse, hbuilt, hlen, hmax]

theorem parseResponse_legal (b : Bytes) : (parseResponse (parseHeader b)).legal = true := by
  cases hx : parseHeader b with
  | error e => rfl
  | ok h => exact ((parseHeader_eq_ok_iff ..).1 hx).1

theorem fromBytesResponse_legal (b : Bytes) : (fromBytesResponse b (parseHeader b)).legal = true := by
  cases hx : parseHeader b with
  | error e => rfl
  | ok h =>
    obtain ⟨hp, rest, rfl⟩ := (parseHeader_eq_ok_iff ..).1 hx
    have hlen := TcpHeader.bytes_length_of_parsed hp
    simp [fromBytesResponse, hp, payloadOf_eq_drop, hlen]

theorem operation_response_legal {i : Instr} (hop : i.isOperation = true) {s : State} {r : Response}
    (hresp : Responds i s r) : r.legal = true := by
  cases i with
  | csumCompute ph hb pl =>
    obtain ⟨-, -, rfl⟩ :=
      (responds_iff_admitted (exec_csumCompute ph hb pl s) (fun _ h => exec_csumCompute_refused h s) r).1 hresp
    rw [csumResponse_legal, bne_iff_ne]
    exact csum_ne_zero ph hb pl
  | csumVerify ph hb pl =>
    obtain ⟨-, -, rfl⟩ :=
      (responds_iff_admitted (exec_csumVerify ph hb pl s) (fun _ h => exec_csumVerify_refused h s) r).1 hresp
    exact validResponse_legal _
  | hdrBuild => exact hdrBuild_response_legal hresp
  | segToBytes => exact segToBytes_response_legal hresp
  | hdrParse b =>
    obtain rfl := (responds_iff _ _ _ _ (exec_hdrParse b s)).1 hresp
    exact parseResponse_legal b
  | segFromBytes b =>
    obtain rfl := (responds_iff _ _ _ _ (exec_segFromBytes b s)).1 hresp
    exact fromBytesResponse_legal b
  | _ => cases hop

/-- Every operation and STATUS that completes gives a legal response and does nothing else to the state. -/
theorem exec_gives_legal_response {i : Instr} {s t : State} (hword : i.isWireWord = false) (hexec : exec i s = .next t) :
    ∃ r : Response, r.legal = true ∧ t = s.respond r := by
  cases i with
  | csumCompute | csumVerify | hdrBuild | hdrParse | segToBytes | segFromBytes =>
    obtain ⟨r, rfl⟩ := exec_operation_next rfl hexec
    exact ⟨r, operation_response_legal rfl ⟨_, hexec, s.respond_rsp r⟩, rfl⟩
  | reservedOp0 | reservedOp7 => cases hexec
  | tcphdrW0 | tcphdrW1 | tcphdrW2 | tcphdrW3 | tcphdrW4 | tcphdrOpt | pseudoW0 | pseudoW1 | pseudoW2 => cases hword
  | status code =>
    obtain rfl | rfl | rfl | rfl := status_code_cases code <;> cases hexec <;> exact ⟨_, rfl, rfl⟩

/-- Settles O51: what completes without being a wire word gives a response. -/
theorem operationsLeaveTheBlockIdle : Obligations.OperationsLeaveTheBlockIdle := by
  intro i s t hword hexec
  obtain ⟨r, -, rfl⟩ := exec_gives_legal_response hword hexec
  exact ⟨s.respond_presented r, Option.some_ne_none r, s.respond_acc r, rfl, s.respond_pos r⟩

end Sys2Proof.Machine
end

section
/-! The invariant of the block (10_state.md R29, R30; 40_checksum.md R92, R101), from reset and over every step. -/

namespace Sys2Proof.Machine

/-! ### The datapath -/

namespace State

theorem datapathInv_iff (s : State) :
    s.datapathInv = true ↔
      (s.odd.valid = true ↔ s.pos % 2 = 1) ∧ s.acc.toNat ≤ 0xFFFF * (s.pos / 2) ∧ s.pos ≤ 72 := by
  rw [datapathInv, Bool.and_eq_true, Bool.and_eq_true, decide_eq_true_iff, decide_eq_true_iff, beq_iff_eq, Bool.eq_iff_iff,
    decide_eq_true_iff, and_assoc]

/-- A byte completes a word of at most 0xFFFF or is the first of one, and 36 words do not overflow ACC (R92). -/
theorem feedByte_datapathInv {s : State} (h : s.datapathInv = true) (hpos : s.pos < 72) (b : Byte) :
    (s.feedByte b).datapathInv = true := by
  obtain ⟨hphase, hacc, -⟩ := s.datapathInv_iff.1 h
  rw [datapathInv_iff, feedByte_pos]
  cases hv : s.odd.valid with
  | false =>
    rw [feedByte_of_not_valid s b hv]
    have heven : ¬ s.pos % 2 = 1 := fun h1 => by simp [hphase.2 h1] at hv
    simp only [true_iff]
    omega
  | true =>
    rw [feedByte_of_valid s b hv]
    have hodd := hphase.1 hv
    have hword := (s.odd.byte ++ b : Word16).isLt
    refine ⟨by simp only [Bool.false_eq_true, false_iff]; omega, ?_, by omega⟩
    rw [BitVec.toNat_add, BitVec.toNat_setWidth_of_le (by decide)]
    omega

theorem feed_datapathInv {s : State} (h : s.datapathInv = true) (bs : Bytes) (hpos : s.pos + bs.length ≤ 72) :
    (s.feed bs).datapathInv = true := by
  induction bs generalizing s with
  | nil => exact h
  | cons b bs ih =>
    rw [List.length_cons] at hpos
    exact ih (feedByte_datapathInv h (by omega) b) (by rw [feedByte_pos]; omega)

theorem inv_iff (s : State) : s.inv = true ↔ s.datapathInv = true ∧ s.responseInv = true := by simp [inv]

/-- A response clears the datapath, so that it alone is left to be legal. -/
theorem respond_inv (s : State) (r : Response) : (s.respond r).inv = r.legal := by
  rw [inv, respond_responseInv]
  exact Bool.true_and _

/-- The response and the phase are what they were, so the bytes alone matter. -/
theorem feed_inv {s : State} (h : s.inv = true) (bs : Bytes) (hpos : s.pos + bs.length ≤ 72) :
    (s.feed bs).inv = true := by
  obtain ⟨hdatapath, hresponse⟩ := s.inv_iff.1 h
  obtain ⟨-, hrsp, -⟩ := s.feed_frame bs
  refine (inv_iff _).2 ⟨feed_datapathInv hdatapath bs hpos, ?_⟩
  rwa [responseInv, hrsp]

end State

/-! ### A step -/

/-- What a command stands for is no wire word (R70). -/
theorem decodeCommand_isWireWord (op : BitVec 3) (o : Operands) : (decodeCommand op o).isWireWord = false := by
  unfold decodeCommand
  split <;> rfl

/-- A wire word is decoded at a multiple of 4 below 72 only (R60, R63, R64). -/
theorem pos_of_decode_wireWord {pos : Nat} {p : Presented} {i : Instr} (hword : i.isWireWord = true)
    (hdecode : decode pos p = .ok i) : pos < 72 ∧ pos % 4 = 0 := by
  cases p with
  | command op o =>
    cases hdecode
    rw [decodeCommand_isWireWord] at hword
    cases hword
  | status code =>
    cases hdecode
    cases hword
  | wire bs =>
    obtain ⟨-, hlt, hmod, -⟩ := (wireWordsThatDecode pos bs).1 ⟨i, hdecode⟩
    exact ⟨hlt, hmod⟩

/-- The host's input enters no part of the invariant. -/
theorem State.inv_withPresented (s : State) (ps : List Presented) : ({ s with presented := ps } : State).inv = s.inv := rfl

/-- Settles O53: a step does nothing, gives a legal response, or feeds the four bytes of a row that ends at 72 at most. -/
theorem stepKeepsTheInvariant : Obligations.StepKeepsTheInvariant := by
  intro s t hinv hstep
  obtain ⟨-, hidle⟩ | ⟨p, rest, i, -, hdecode, hexec⟩ | ⟨p, rest, e, -, -, hrefused⟩ := step_cases s
  · obtain rfl : s = t := Host.Outcome.next.inj (hidle.symm.trans hstep)
    exact hinv
  · rw [hexec] at hstep
    rw [← s.inv_withPresented rest] at hinv
    cases hword : i.isWireWord with
    | false =>
      obtain ⟨r, hlegal, rfl⟩ := exec_gives_legal_response hword hstep
      rwa [State.respond_inv]
    | true =>
      obtain ⟨hlt, hmod⟩ := pos_of_decode_wireWord hword hdecode
      obtain ⟨bs, hlen, -, hfeed⟩ := exec_wireWord hword ((answeredExactlyWhenWellFormed i _).1 ⟨t, hstep⟩)
      obtain rfl := Host.Outcome.next.inj ((hfeed _).symm.trans hstep)
      exact State.feed_inv hinv bs (by rw [hlen]; show s.pos + 4 ≤ 72; omega)
  · cases hrefused.symm.trans hstep

/-- Settles O54: nothing is fed and nothing is pending. -/
theorem resetMeetsTheInvariant : Obligations.ResetMeetsTheInvariant := by
  unfold Obligations.ResetMeetsTheInvariant
  decide

/-- Settles O55: the reset input is reset. -/
theorem resetLeavesTheBlockIdle : Obligations.ResetLeavesTheBlockIdle :=
  fun _ => ⟨rfl, rfl, rfl, rfl, rfl, rfl⟩

end Sys2Proof.Machine
end

section
/-! Runs (20_memory.md R52, R55; 70_reset_and_hazards.md R197): what is presented is taken one item a step, in order. -/

namespace Sys2Proof.Machine

/-! ### A stream of wire words -/

/-- What is encoded as a wire word is one, and it is admitted if the protocol byte of PSEUDO.W2 is 6 (R64, R74). -/
theorem wf_of_encode_wire {i : Instr} {w : Bytes} {pos : Nat} (hencode : encode i = .wire w)
    (hstands : i.standsAt pos = true) (hproto : pos = 8 → byteAt w 1 = 6) : i.isWireWord = true ∧ i.wf = true := by
  cases i with
  | csumCompute | csumVerify | hdrBuild | hdrParse | segToBytes | segFromBytes | reservedOp0 | reservedOp7 | status =>
    cases hencode
  | tcphdrW0 | tcphdrW1 | tcphdrW2 | tcphdrW3 | tcphdrW4 | tcphdrOpt | pseudoW0 | pseudoW1 => exact ⟨rfl, rfl⟩
  | pseudoW2 p l =>
    cases hencode
    exact ⟨rfl, (wf_pseudoW2_iff p l).2 (hproto (of_decide_eq_true hstands))⟩

/-- Four bytes at the position of a row are performed as one wire word: they are fed (R60, R63, R64, R101). -/
theorem step_wire {s : State} {w : Bytes} {rest : List Presented} (hpresented : s.presented = .wire w :: rest)
    (hlen : w.length = 4) (hlt : s.pos < 72) (hmod : s.pos % 4 = 0)
    (hpseudo : s.pos = 8 → w[0]? = some 0 ∧ w[1]? = some 6) :
    step s = .next (State.feed { s with presented := rest } w) := by
  obtain ⟨i, hdecode⟩ := (wireWordsThatDecode s.pos w).2 ⟨hlen, hlt, hmod, fun h8 => (hpseudo h8).1⟩
  obtain ⟨hstands, hencode⟩ := wireWordsHaveOneReading s.pos w i hdecode
  obtain ⟨hword, hwf⟩ := wf_of_encode_wire hencode hstands fun h8 => byteAt_of_getElem? (hpseudo h8).2
  obtain ⟨bs, -, hencode', hexec⟩ := exec_wireWord hword hwf
  obtain rfl : w = bs := Presented.wire.inj (hencode.symm.trans hencode')
  rw [(stepRunsTheDecodedInstruction s _ rest hpresented).1 i hdecode, hexec]

/-- The datapath does not look at what is presented. -/
theorem State.feed_withPresented (s : State) (ps : List Presented) (bs : Bytes) :
    State.feed { s with presented := ps } bs = { s.feed bs with presented := ps } := by
  induction bs generalizing s with
  | nil => rfl
  | cons b bs ih =>
    have hbyte : State.feedByte { s with presented := ps } b = { s.feedByte b with presented := ps } := by
      unfold State.feedByte
      split <;> rfl
    rw [State.feed_cons, hbyte, ih, State.feed_cons]

/-- A sequence presented word by word is fed whole, if its words stand at the positions of rows (R65, R101). -/
theorem run_wireWords (bs : Bytes) {s : State} (hpresented : s.presented = wireWords bs) (hlen : bs.length % 4 = 0)
    (hmod : s.pos % 4 = 0) (hend : s.pos + bs.length ≤ 72)
    (hpseudo : ∀ k, s.pos + k = 8 → k < bs.length → bs[k]? = some 0 ∧ bs[k + 1]? = some 6) :
    Host.Core.run core (bs.length / 4) s = .next (State.feed { s with presented := [] } bs) := by
  induction bs using wireWords.induct generalizing s with
  | case1 a b c d rest ih =>
    simp only [List.length_cons] at hlen hend
    have hstep := step_wire hpresented rfl (by omega) hmod fun h8 => hpseudo 0 h8 (by simp)
    have hcount : (a :: b :: c :: d :: rest).length / 4 = rest.length / 4 + 1 := by
      simp only [List.length_cons]
      omega
    obtain ⟨hpresented', -, hpos⟩ := State.feed_frame { s with presented := wireWords rest } [a, b, c, d]
    replace hpos : (State.feed { s with presented := wireWords rest } [a, b, c, d]).pos = s.pos + 4 := hpos
    rw [hcount, run_succ hstep, ih hpresented' (by omega) (by omega) (by omega) fun k h8 hk => ?_,
      ← State.feed_withPresented]
    · rfl
    · exact hpseudo (k + 4) (by omega) (by simpa using hk)
  | case2 bs hshort =>
    match bs with
    | [] =>
      have hnil : s.presented = [] := hpresented
      rw [State.feed_nil, ← hnil]
      rfl
    | [_] | [_, _] | [_, _, _] => simp at hlen
    | a :: b :: c :: d :: rest => exact absurd rfl (hshort a b c d rest)

theorem State.start_of_idle {s : State} (hacc : s.acc = 0) (hodd : s.odd.valid = false) (hpos : s.pos = 0) :
    s.start = s := by
  obtain ⟨presented, rsp, acc, ⟨valid, byte⟩, pos⟩ := s
  subst hacc hodd hpos
  rfl

/-- Settles O25: the run feeds the stream of the header, which the serial datapath sums (O24). -/
theorem wireWordsInOrderComputeTheChecksum : Obligations.WireWordsInOrderComputeTheChecksum := by
  intro ph hb s hp hmod h20 h60 hacc hodd hpos hpresented
  have hlen : (phBytes ph hb.length ++ hb).length = 12 + hb.length := by rw [List.length_append, phBytes_length]
  have hcount : 3 + hb.length / 4 = (phBytes ph hb.length ++ hb).length / 4 := by omega
  have hpseudo (k : Nat) (h8 : s.pos + k = 8) :
      (phBytes ph hb.length ++ hb)[k]? = some 0 ∧ (phBytes ph hb.length ++ hb)[k + 1]? = some 6 := by
    obtain rfl : k = 8 := by omega
    exact ⟨rfl, congrArg some hp⟩
  have hrun := run_wireWords _ hpresented (by omega) (by omega) (by omega) fun k h8 _ => hpseudo k h8
  obtain ⟨hpresented', hrsp, hpos'⟩ := State.feed_frame { s with presented := [] } (phBytes ph hb.length ++ hb)
  have hidle : State.start { s with presented := [] } = { s with presented := [] } := State.start_of_idle hacc hodd hpos
  obtain ⟨hresult, -⟩ := serialDatapathComputesTheRawChecksum ph hb [] { s with presented := [] } _
    (by rw [List.length_nil]; omega) rfl
  rw [hidle, List.append_nil] at hresult
  refine ⟨_, hcount ▸ hrun, hpresented', hrsp, ?_, hresult⟩
  rw [hpos', hlen]
  show s.pos + _ = _
  omega

/-! ### A stream of admitted commands -/

/-- A command in the admitted domain is one of the six operations (R70, R75). -/
theorem decodeCommand_isOperation_of_wf {op : BitVec 3} {o : Operands} (hwf : (decodeCommand op o).wf = true) :
    (decodeCommand op o).isOperation = true := by
  unfold decodeCommand at hwf ⊢
  split at hwf
  case h_7 | h_8 => cases hwf
  all_goals rfl

/-- An admitted item is a command, and a step answers it (R52, R74). -/
theorem step_admitted {s : State} {p : Presented} {rest : List Presented} (hpresented : s.presented = p :: rest)
    (hadmitted : p.admitted = true) :
    ∃ (op : BitVec 3) (o : Operands) (r : Response), p = .command op o ∧
      Responds (decodeCommand op o) s r ∧ step s = .next (State.respond { s with presented := rest } r) := by
  cases p with
  | wire bs => cases hadmitted
  | status code => cases hadmitted
  | command op o =>
    have hop := decodeCommand_isOperation_of_wf hadmitted
    obtain ⟨t, hexec⟩ := (answeredExactlyWhenWellFormed _ { s with presented := rest }).2 hadmitted
    obtain ⟨r, rfl⟩ := exec_operation_next hop hexec
    refine ⟨op, o, r, rfl, ?_, ?_⟩
    · exact (responds_operation_iff_in_any_state hop _ s r).1 ⟨_, hexec, rfl⟩
    · rw [(stepRunsTheDecodedInstruction s _ rest hpresented).1 _ rfl, hexec]

/-- Settles O56: the first step answers the first command, and by R10 its end state answers the others as the start does. -/
theorem admittedCommandStreamsAreAllAnswered : Obligations.AdmittedCommandStreamsAreAllAnswered := by
  intro n
  induction n with
  | zero => exact fun s _ _ => ⟨s, rfl, rfl, fun _ _ h0 _ => absurd h0 (lt_irrefl 0)⟩
  | succ n ih =>
    intro s hadmitted hlen
    cases hpresented : s.presented with
    | nil => simp [hpresented] at hlen
    | cons p rest =>
      rw [hpresented] at hadmitted hlen
      obtain ⟨op, o, r, rfl, hresp, hstep⟩ := step_admitted hpresented (hadmitted p List.mem_cons_self)
      obtain ⟨t, hrun, hdrop, hlast⟩ := ih (State.respond { s with presented := rest } r)
        (fun q hq => hadmitted q (List.mem_cons_of_mem _ hq)) (Nat.le_of_succ_le_succ hlen)
      refine ⟨t, (run_succ hstep n).trans hrun, hdrop, fun op' o' _ hget => ?_⟩
      cases n with
      | zero =>
        cases hget
        cases hrun
        exact ⟨r, hresp, rfl⟩
      | succ n =>
        obtain ⟨r', hresp', hrsp⟩ := hlast op' o' n.succ_pos hget
        have hop' := decodeCommand_isOperation_of_wf (hadmitted _ (List.mem_of_getElem? hget))
        exact ⟨r', (responds_operation_iff_in_any_state hop' _ s r').1 hresp', hrsp⟩

end Sys2Proof.Machine
end

section
/-! The masks of the raw byte pair (41_header_codec.md R110). -/

namespace Sys2Proof.Machine

/-- Settles O28: the ten masks, evaluated. -/
theorem masksPartitionThePair : Obligations.MasksPartitionThePair := by
  unfold Obligations.MasksPartitionThePair
  decide

end Sys2Proof.Machine
end
